-- ==== Sys2Proof/Word.lean ====
section
/-! DEFINITION. The machine's words: bytes, opcodes, addresses and register numbers (rules R6 to R9). -/

namespace Sys2Proof

/-- A byte: the width of a V register, of a timer and of one memory cell (R6, R21, R45). -/
abbrev Byte := BitVec 8

/-- A 16-bit word: an opcode (R65), the program counter (R25), a stack entry (R27). -/
abbrev Word := BitVec 16

/-- A 12-bit address: the `nnn` field (R66) and the address register `I` (R24). -/
abbrev Addr := BitVec 12

/-- A register number, 0x0 to 0xF (R21); the key numbers 0x0 to 0xF have the same type (R32). -/
abbrev Reg := Fin 16

/-- VF, register 0xF, which doubles as the flag output (R22). -/
abbrev vf : Reg := 15

end Sys2Proof
end

