-- ==== Sys2Proof/Syntax.lean ====
section
/-! DEFINITION. The instructions: one constructor for each of the 35 rows of the opcode table (rules R66, R70, R77). -/

namespace Sys2Proof

/-- An instruction with its operands, named as rule R8 names them: `x` and `y` are register numbers, `nn` an 8-bit
immediate, `nnn` a 12-bit address, `n` a count of sprite rows. The low nibble of 5xy_ and 9xy_ is no operand: the
decoder ignores it (R71). The `y` of 8xy6 and 8xyE is encoded, and the instruction does not read it (R98, R100). -/
inductive Instr where
  /-- 0000, `NOP` (R80). -/
  | nop
  /-- 00E0, `CLS` (R111). -/
  | cls
  /-- 00EE, `RET` (R81). -/
  | ret
  /-- 1nnn, `JP nnn` (R82). -/
  | jp (nnn : Addr)
  /-- 2nnn, `CALL nnn` (R83). -/
  | call (nnn : Addr)
  /-- 3xnn, `SE Vx, nn` (R84). -/
  | seImm (x : Reg) (nn : Byte)
  /-- 4xnn, `SNE Vx, nn` (R85). -/
  | sneImm (x : Reg) (nn : Byte)
  /-- 5xy_, `SE Vx, Vy` (R86). -/
  | seReg (x y : Reg)
  /-- 6xnn, `LD Vx, nn` (R90). -/
  | ldImm (x : Reg) (nn : Byte)
  /-- 7xnn, `ADD Vx, nn` (R91). -/
  | addImm (x : Reg) (nn : Byte)
  /-- 8xy0, `LD Vx, Vy` (R92). -/
  | ldReg (x y : Reg)
  /-- 8xy1, `OR Vx, Vy` (R93). -/
  | orReg (x y : Reg)
  /-- 8xy2, `AND Vx, Vy` (R94). -/
  | andReg (x y : Reg)
  /-- 8xy3, `XOR Vx, Vy` (R95). -/
  | xorReg (x y : Reg)
  /-- 8xy4, `ADD Vx, Vy` (R96). -/
  | addReg (x y : Reg)
  /-- 8xy5, `SUB Vx, Vy` (R97). -/
  | subReg (x y : Reg)
  /-- 8xy6, `SHR Vx` (R98). -/
  | shr (x y : Reg)
  /-- 8xy7, `SUBN Vx, Vy` (R99). -/
  | subnReg (x y : Reg)
  /-- 8xyE, `SHL Vx` (R100). -/
  | shl (x y : Reg)
  /-- 9xy_, `SNE Vx, Vy` (R87). -/
  | sneReg (x y : Reg)
  /-- Annn, `LD I, nnn` (R104). -/
  | ldI (nnn : Addr)
  /-- Bnnn, `JP V0, nnn` (R88). -/
  | jpV0 (nnn : Addr)
  /-- Cxnn, `RND Vx, nn` (R101). -/
  | rnd (x : Reg) (nn : Byte)
  /-- Dxyn, `DRW Vx, Vy, n` (R112). -/
  | drw (x y : Reg) (n : Nat)
  /-- Ex9E, `SKP Vx` (R115). -/
  | skp (x : Reg)
  /-- ExA1, `SKNP Vx` (R116). -/
  | sknp (x : Reg)
  /-- Fx07, `LD Vx, DT` (R117). -/
  | ldVxDt (x : Reg)
  /-- Fx0A, `LD Vx, K` (R118). -/
  | ldVxK (x : Reg)
  /-- Fx15, `LD DT, Vx` (R119). -/
  | ldDtVx (x : Reg)
  /-- Fx18, `LD ST, Vx` (R120). -/
  | ldStVx (x : Reg)
  /-- Fx1E, `ADD I, Vx` (R105). -/
  | addI (x : Reg)
  /-- Fx29, `LD F, Vx` (R106). -/
  | ldF (x : Reg)
  /-- Fx33, `LD B, Vx` (R108). -/
  | ldB (x : Reg)
  /-- Fx55, `LD [I], Vx` (R109). -/
  | storeRegs (x : Reg)
  /-- Fx65, `LD Vx, [I]` (R110). -/
  | loadRegs (x : Reg)
  deriving DecidableEq, Repr

end Sys2Proof
end

