-- ==== Sys2Proof/Decode.lean ====
section
/-! DEFINITION. The decoder (rules R65 to R72) and, after it, the encoder, both written from the table of rule R70. -/

namespace Sys2Proof

/-! ### Bytes, words and the fields of a word (R54, R66) -/

/-- A register number as the nibble that encodes it (R8). -/
def Reg.bits (x : Reg) : BitVec 4 := BitVec.ofFin x

/-- Two bytes as one word, the first one the high half: instruction words are big-endian (R54). -/
def Word.ofBytes (hi lo : Byte) : Word := hi ++ lo

/-- The byte of a word that lies at the lower address (R54). -/
def Word.hiByte (w : Word) : Byte := w.extractLsb' 8 8

/-- The byte of a word that lies at the higher address (R54). -/
def Word.loByte (w : Word) : Byte := w.extractLsb' 0 8

/-- `x = op[11:8]`. -/
def Word.x (op : Word) : Reg := (op.extractLsb' 8 4).toFin

/-- `y = op[7:4]`. -/
def Word.y (op : Word) : Reg := (op.extractLsb' 4 4).toFin

/-- `n = op[3:0]`, a count. -/
def Word.n (op : Word) : Nat := (op.extractLsb' 0 4).toNat

/-- `nn = op[7:0]`. -/
def Word.nn (op : Word) : Byte := op.extractLsb' 0 8

/-- `nnn = op[11:0]`. -/
def Word.nnn (op : Word) : Addr := op.extractLsb' 0 12

/-! ### The opcode table (R70) -/

/-- One row of the table: the word to match under the mask, and the instruction its fields make. -/
structure Row where
  pattern : Word
  mask : Word
  build : Word → Instr

/-- "A word matches a row when `(op & mask) == match`" (R69). -/
def Row.accepts (r : Row) (op : Word) : Bool := op &&& r.mask == r.pattern

/-- Rows 1 to 10 of R70. -/
def tableControl : List Row := [
  ⟨0x0000, 0xFFFF, fun _ => .nop⟩,
  ⟨0x00E0, 0xFFFF, fun _ => .cls⟩,
  ⟨0x00EE, 0xFFFF, fun _ => .ret⟩,
  ⟨0x1000, 0xF000, fun op => .jp op.nnn⟩,
  ⟨0x2000, 0xF000, fun op => .call op.nnn⟩,
  ⟨0x3000, 0xF000, fun op => .seImm op.x op.nn⟩,
  ⟨0x4000, 0xF000, fun op => .sneImm op.x op.nn⟩,
  ⟨0x5000, 0xF000, fun op => .seReg op.x op.y⟩,
  ⟨0x6000, 0xF000, fun op => .ldImm op.x op.nn⟩,
  ⟨0x7000, 0xF000, fun op => .addImm op.x op.nn⟩]

/-- Rows 11 to 19 of R70. -/
def tableArithmetic : List Row := [
  ⟨0x8000, 0xF00F, fun op => .ldReg op.x op.y⟩,
  ⟨0x8001, 0xF00F, fun op => .orReg op.x op.y⟩,
  ⟨0x8002, 0xF00F, fun op => .andReg op.x op.y⟩,
  ⟨0x8003, 0xF00F, fun op => .xorReg op.x op.y⟩,
  ⟨0x8004, 0xF00F, fun op => .addReg op.x op.y⟩,
  ⟨0x8005, 0xF00F, fun op => .subReg op.x op.y⟩,
  ⟨0x8006, 0xF00F, fun op => .shr op.x op.y⟩,
  ⟨0x8007, 0xF00F, fun op => .subnReg op.x op.y⟩,
  ⟨0x800E, 0xF00F, fun op => .shl op.x op.y⟩]

/-- Rows 20 to 26 of R70. -/
def tableMiddle : List Row := [
  ⟨0x9000, 0xF000, fun op => .sneReg op.x op.y⟩,
  ⟨0xA000, 0xF000, fun op => .ldI op.nnn⟩,
  ⟨0xB000, 0xF000, fun op => .jpV0 op.nnn⟩,
  ⟨0xC000, 0xF000, fun op => .rnd op.x op.nn⟩,
  ⟨0xD000, 0xF000, fun op => .drw op.x op.y op.n⟩,
  ⟨0xE09E, 0xF0FF, fun op => .skp op.x⟩,
  ⟨0xE0A1, 0xF0FF, fun op => .sknp op.x⟩]

/-- Rows 27 to 35 of R70. -/
def tableMisc : List Row := [
  ⟨0xF007, 0xF0FF, fun op => .ldVxDt op.x⟩,
  ⟨0xF00A, 0xF0FF, fun op => .ldVxK op.x⟩,
  ⟨0xF015, 0xF0FF, fun op => .ldDtVx op.x⟩,
  ⟨0xF018, 0xF0FF, fun op => .ldStVx op.x⟩,
  ⟨0xF01E, 0xF0FF, fun op => .addI op.x⟩,
  ⟨0xF029, 0xF0FF, fun op => .ldF op.x⟩,
  ⟨0xF033, 0xF0FF, fun op => .ldB op.x⟩,
  ⟨0xF055, 0xF0FF, fun op => .storeRegs op.x⟩,
  ⟨0xF065, 0xF0FF, fun op => .loadRegs op.x⟩]

/-- The 35 rows of R70, in the table's order. -/
def opcodeTable : List Row := tableControl ++ tableArithmetic ++ tableMiddle ++ tableMisc

/-! ### The decoder (R68, R69, R72) -/

/-- Why bytes decode to no instruction. -/
inductive DecodeError where
  /-- The word matches no row of R70: an "unimplemented opcode" (R72). -/
  | illegalOpcode (op : Word)
  /-- Fewer than the two bytes of an instruction (R65). -/
  | truncated
  deriving DecidableEq, Repr

/-- The instruction of the row the word matches, or its rejection by name (R68, R72). -/
def decodeWord (op : Word) : Except DecodeError Instr :=
  match opcodeTable.find? (·.accepts op) with
  | some row => .ok (row.build op)
  | none => .error (.illegalOpcode op)

/-- Decode the instruction at the front of a byte sequence and give the bytes after it: every instruction is two
bytes, the first the high half (R54, R65). -/
def decodeBytes : List Byte → Except DecodeError (Instr × List Byte)
  | hi :: lo :: rest =>
    match decodeWord (Word.ofBytes hi lo) with
    | .ok i => .ok (i, rest)
    | .error e => .error e
  | _ => .error .truncated

/-- The word that the opcode table's bit numbering gives: bits at `nbits` and above are zero. -/
def tableWord (nbits w : Nat) : Word := BitVec.ofNat 16 (w % 2 ^ nbits)

/-- The instruction the decoder reads from a table word laid out as the hardware stores it. -/
def decodeTableWord (nbits w : Nat) : Option Instr :=
  match decodeBytes [(tableWord nbits w).hiByte, (tableWord nbits w).loByte] with
  | .ok (i, _) => some i
  | .error _ => none

/-! ### The encoder (R66, R70) -/

/-- Format NNN: class and `nnn`. -/
def fmtNNN (c : BitVec 4) (nnn : Addr) : Word := c ++ nnn

/-- Format XNN, and format X with its function byte: class, `x` and a byte. -/
def fmtXNN (c : BitVec 4) (x : Reg) (nn : Byte) : Word := c ++ (x.bits ++ nn)

/-- Formats XY and XYN: class, `x`, `y` and the low nibble. -/
def fmtXYN (c : BitVec 4) (x y : Reg) (n : BitVec 4) : Word := c ++ (x.bits ++ (y.bits ++ n))

/-- The word of an instruction. The ignored nibble of 5xy_ and 9xy_ is written 0 (R71, R75). -/
def encode : Instr → Word
  | .nop => 0x0000
  | .cls => 0x00E0
  | .ret => 0x00EE
  | .jp nnn => fmtNNN 0x1 nnn
  | .call nnn => fmtNNN 0x2 nnn
  | .seImm x nn => fmtXNN 0x3 x nn
  | .sneImm x nn => fmtXNN 0x4 x nn
  | .seReg x y => fmtXYN 0x5 x y 0x0
  | .ldImm x nn => fmtXNN 0x6 x nn
  | .addImm x nn => fmtXNN 0x7 x nn
  | .ldReg x y => fmtXYN 0x8 x y 0x0
  | .orReg x y => fmtXYN 0x8 x y 0x1
  | .andReg x y => fmtXYN 0x8 x y 0x2
  | .xorReg x y => fmtXYN 0x8 x y 0x3
  | .addReg x y => fmtXYN 0x8 x y 0x4
  | .subReg x y => fmtXYN 0x8 x y 0x5
  | .shr x y => fmtXYN 0x8 x y 0x6
  | .subnReg x y => fmtXYN 0x8 x y 0x7
  | .shl x y => fmtXYN 0x8 x y 0xE
  | .sneReg x y => fmtXYN 0x9 x y 0x0
  | .ldI nnn => fmtNNN 0xA nnn
  | .jpV0 nnn => fmtNNN 0xB nnn
  | .rnd x nn => fmtXNN 0xC x nn
  | .drw x y n => fmtXYN 0xD x y (BitVec.ofNat 4 n)
  | .skp x => fmtXNN 0xE x 0x9E
  | .sknp x => fmtXNN 0xE x 0xA1
  | .ldVxDt x => fmtXNN 0xF x 0x07
  | .ldVxK x => fmtXNN 0xF x 0x0A
  | .ldDtVx x => fmtXNN 0xF x 0x15
  | .ldStVx x => fmtXNN 0xF x 0x18
  | .addI x => fmtXNN 0xF x 0x1E
  | .ldF x => fmtXNN 0xF x 0x29
  | .ldB x => fmtXNN 0xF x 0x33
  | .storeRegs x => fmtXNN 0xF x 0x55
  | .loadRegs x => fmtXNN 0xF x 0x65

end Sys2Proof
end

