-- ==== Sys2Proof/Config.lean ====
section
/-! DEFINITION. The parameters of rule R6, fixed for the machine, and its one free value. -/

namespace Sys2Proof.Config

/-- `MEM_SIZE`: addresses 0x000 to 0xFFF (R6, R45). -/
@[simp] abbrev memSize : Nat := 4096

/-- The size of the font region, which is 0x000 to 0x04F (R6, R46). -/
@[simp] abbrev fontSize : Nat := 80

/-- `PROGRAM_BASE`: where `LoadProgram` puts the first byte (R6, R148). -/
@[simp] abbrev programBase : Nat := 0x200

/-- `MAX_PROGRAM`: the longest program image (R6, R149). -/
@[simp] abbrev maxProgram : Nat := 3584

/-- The random byte of Cxnn, a free draw (R33, R101, decision D18): the byte of the n-th draw. It has no body, so
nothing can be proved of its value; `State.draws` is the number the next draw takes (assumption log 1). -/
opaque rand8 : Nat → Byte

end Sys2Proof.Config
end

