-- ==== Sys2Proof/Machine/Font.lean ====
section
/-! DEFINITION. The font set that initialization installs (rule R48). -/

namespace Sys2Proof.Machine

/-- The contents of 0x000 to 0x04F: 16 glyphs of 5 bytes (R46, R48). -/
abbrev Font := Vector Byte Config.fontSize

/-- Glyphs 0 to 7 of the default font of R48. -/
def glyphsLow : List Byte :=
  [0xF0, 0x90, 0x90, 0x90, 0xF0] ++ [0x20, 0x60, 0x20, 0x20, 0x70] ++
  [0xF0, 0x10, 0xF0, 0x80, 0xF0] ++ [0xF0, 0x10, 0xF0, 0x10, 0xF0] ++
  [0x90, 0x90, 0xF0, 0x10, 0x10] ++ [0xF0, 0x80, 0xF0, 0x10, 0xF0] ++
  [0xF0, 0x80, 0xF0, 0x90, 0xF0] ++ [0xF0, 0x10, 0x20, 0x40, 0x40]

/-- Glyphs 8 to F of the default font of R48. -/
def glyphsHigh : List Byte :=
  [0xF0, 0x90, 0xF0, 0x90, 0xF0] ++ [0xF0, 0x90, 0xF0, 0x10, 0xF0] ++
  [0xF0, 0x90, 0xF0, 0x90, 0x90] ++ [0xE0, 0x90, 0xE0, 0x90, 0xE0] ++
  [0xF0, 0x80, 0x80, 0x80, 0xF0] ++ [0xE0, 0x90, 0x90, 0x90, 0xE0] ++
  [0xF0, 0x80, 0xF0, 0x80, 0xF0] ++ [0xF0, 0x80, 0xF0, 0x80, 0x80]

/-- The default font of R48. The spec leaves the font open as the parameter `FONT` (decision D19) and marks this default
as general knowledge, so the font is data of the state and this value is only what `State.reset` installs
(PRESUMED, assumption log 2). -/
def defaultFont : Font := ⟨(glyphsLow ++ glyphsHigh).toArray, by decide⟩

end Sys2Proof.Machine
end

