-- ==== Sys2Proof/Machine/State.lean ====
section
/-! DEFINITION. The state of the machine (rule R20), the reasons a step can end, and the state after reset. -/

namespace Sys2Proof.Machine

/-- The fault kinds of R123. Each is TAKEN as the spec describes it: the operation that raises it answers a next state
with the fault record set and nothing else changed (R124, R125). So no step of this model answers the outcome `fault`,
and these names stand in the record that `State.fault` holds. -/
inductive Fault where
  /-- Raised by every `ExecuteStep` whose PC is above 0xFFE at the fetch. Safe: the spec chose a fault (D2). -/
  | fetchRange
  /-- Raised by every `ExecuteStep` that fetches a word of no row of R70. Safe: the spec chose no skipping (D9). -/
  | illegalOpcode
  /-- Raised by 2nnn with all 16 stack entries in use. Safe: the source calls it fatal (D8). -/
  | stackOverflow
  /-- Raised by 00EE with the stack empty. Safe: the source calls it fatal (D8). -/
  | stackUnderflow
  /-- Raised by Dxyn, Fx33, Fx55 and Fx65 at a data address above 0xFFF. Safe: the spec chose a fault (D4). -/
  | memRange
  /-- Raised by Fx33 and Fx55 at a write to 0x000 to 0x04F. Safe: the spec chose a fault (D5). -/
  | fontWrite
  /-- Raised by Ex9E and ExA1 with Vx above 0x0F. Safe: the spec chose a fault (D13). -/
  | keyRange
  /-- Raised by `LoadProgram` with more than 3584 bytes. Safe: the source calls it fatal. -/
  | programTooLarge
  deriving DecidableEq, Repr

/-- Why a step has no meaning. -/
inductive Refusal where
  /-- Raised by an arm of `exec` with no meaning yet; no arm is left so. Safe: nothing can be proved of the step. -/
  | notModelled (mnemonic : String)
  /-- Raised by `ExecuteStep`, `TimerTick`, `LoadProgram` and `SetKeys` while the core is halted: "the model refuses
  them" (R126). Safe: the spec gives a halted core no step. -/
  | halted
  deriving DecidableEq, Repr

/-- The fault record `(code, pc, opcode, info)` of R124. `pc` and `opcode` are absent where no instruction or no word
is involved (R124; the record of V99 for `pc`, assumption log 5). -/
structure FaultRecord where
  code : Fault
  pc : Option Word
  opcode : Option Word
  info : Option Nat
  deriving DecidableEq, Repr

/-- 64 columns of 32 cells: `FB[c][r]`, true for lit (R31). -/
abbrev Framebuffer := Vector (Vector Bool 32) 64

/-- The 16 key flags `K[k]`, true while held (R32). -/
abbrev Keys := Vector Bool 16

/-- Memory that differs from its reset contents, as address and byte pairs in canonical form (R45). -/
abbrev Memory := List Host.Cell

/-- The host operations of R139. `Init` is `State.init`, since it creates the state (R146). -/
inductive HostOp where
  /-- One fetch-decode-execute cycle (R68). -/
  | executeStep
  /-- Count the timers down once (R134). -/
  | timerTick
  /-- Write the keypad latch (R140). -/
  | setKeys (keys : Keys)
  /-- Copy a program image to 0x200 (R148). -/
  | loadProgram (bytes : List Byte)
  /-- Answer the framebuffer (R141). -/
  | readFramebuffer
  /-- Answer the keypad latch (R142). -/
  | readKeys
  /-- Answer the fault record (R142). -/
  | readFault
  deriving DecidableEq, Repr

/-- What a host operation answers (R139). -/
inductive HostResult where
  /-- The operation completed and answers nothing. -/
  | ok
  /-- The operation raised this fault (R143, R149). -/
  | faulted (r : FaultRecord)
  /-- The beep result of a tick (R135). -/
  | beep (b : Bool)
  /-- The framebuffer (R141). -/
  | framebuffer (fb : Framebuffer)
  /-- The keypad latch (R142). -/
  | keys (k : Keys)
  /-- The fault record, or none (R142). -/
  | fault (f : Option FaultRecord)
  deriving DecidableEq, Repr

/-- The state record of R20, and two fields of the model's own: `schedule` and `draws`. -/
structure State where
  /-- `V[0..15]` (R21). -/
  v : Vector Byte 16
  /-- The address register `I` (R24). -/
  i : Addr
  /-- The program counter (R25, R26). -/
  pc : Word
  /-- `SP`, the number of stack entries in use, 0 to 16 (R27). -/
  sp : Fin 17
  /-- `Stack[0..15]` (R27). -/
  stack : Vector Word 16
  /-- The delay timer (R29). -/
  dt : Byte
  /-- The sound timer (R30). -/
  st : Byte
  /-- `Mem[0x000..0x04F]`, the font region: the parameter `FONT` (R47, R48). -/
  font : Font
  /-- `Mem[0x050..0xFFF]`, the bytes that differ from zero (R45, R49). -/
  mem : Memory
  /-- The framebuffer (R31). -/
  fb : Framebuffer
  /-- The keypad latch (R32). -/
  keys : Keys
  /-- `Fault`, none or the record of the fault that halted the core (R34). -/
  fault : Option FaultRecord
  /-- The model's own: the host operations to come, oldest first; with none left the host issues `ExecuteStep`
  (R5, decision D22, assumption log 3). -/
  schedule : List HostOp
  /-- The model's own: how many random bytes have been drawn (R33, decision D18, assumption log 1). -/
  draws : Nat
  deriving DecidableEq, Repr

/-- `Init` with the font as its parameter: every component at its reset value (R37 to R44, R146, decision D19). -/
def State.init (font : Font) : State where
  v := Vector.replicate 16 0
  i := 0
  pc := 0x200
  sp := 0
  stack := Vector.replicate 16 0
  dt := 0
  st := 0
  font := font
  mem := []
  fb := Vector.replicate 64 (Vector.replicate 32 false)
  keys := Vector.replicate 16 false
  fault := none
  schedule := []
  draws := 0

/-- The machine right after reset, with the default font of R48 (assumption log 2). -/
def State.reset : State := State.init defaultFont

end Sys2Proof.Machine
end

