-- ==== Sys2Proof/Machine/Ops.lean ====
section
/-! DEFINITION. The named operations over registers, stack, memory and framebuffer, and the taking of a fault. -/

namespace Sys2Proof.Machine

/-! ### Memory as data (R45 to R49) -/

/-- What an address that no cell lists reads as, which is its reset content: the font below 0x050, zero above
(R42, R48, R49). -/
def unlisted (font : Font) (a : Nat) : Byte :=
  if h : a < Config.fontSize then font[a] else 0

/-- The byte listed for an address. -/
def Memory.find : Memory → Nat → Option Byte
  | [], _ => none
  | (a, b) :: m, k => if a = k then some b else Memory.find m k

/-- List a byte at an address, in address order. -/
def Memory.put : Memory → Nat → Byte → Memory
  | [], k, b => [(k, b)]
  | (a, c) :: m, k, b =>
    if k < a then (k, b) :: (a, c) :: m
    else if k = a then (k, b) :: m
    else (a, c) :: Memory.put m k b

/-- Take an address out of the list, wherever it is listed. -/
def Memory.drop : Memory → Nat → Memory
  | [], _ => []
  | (a, c) :: m, k => if a = k then Memory.drop m k else (a, c) :: Memory.drop m k

/-- The byte at an address. -/
def Memory.read (font : Font) (m : Memory) (a : Nat) : Byte :=
  (m.find a).getD (unlisted font a)

/-- Make an address read as a byte, keeping the canonical form. -/
def Memory.write (font : Font) (m : Memory) (a : Nat) (b : Byte) : Memory :=
  if b = unlisted font a then m.drop a else m.put a b

/-- The cells' addresses rise strictly from above a bound, lie in 0x050 to 0xFFF, and list no byte that the address
would read as anyway. -/
def Memory.wfAbove (font : Font) : Nat → Memory → Bool
  | _, [] => true
  | lo, (a, b) :: m =>
    decide (lo ≤ a) && decide (a < Config.memSize) && decide (b ≠ unlisted font a) && Memory.wfAbove font (a + 1) m

/-- The canonical form of memory. The font region is never listed: it is read-only and `State.font` holds it (R47). -/
def Memory.wf (font : Font) (m : Memory) : Bool := m.wfAbove font Config.fontSize

/-- Write bytes at consecutive addresses, the first at `a`. -/
def Memory.writeBytes (font : Font) (m : Memory) (a : Nat) : List Byte → Memory
  | [] => m
  | b :: bs => Memory.writeBytes font (m.write font a b) (a + 1) bs

/-! ### Registers (R21, R22) -/

/-- `V[x]`. -/
def State.readV (s : State) (x : Reg) : Byte := s.v.get x

/-- `V[x] <- b`. -/
def State.writeV (s : State) (x : Reg) (b : Byte) : State := { s with v := s.v.set x.val b x.isLt }

/-- VF as a flag output: an ordinary write of register 0xF (R22). -/
def State.setFlag (s : State) (b : Byte) : State := s.writeV vf b

/-! ### The program counter (R26, R68) -/

/-- The pre-advance: `PC <- PC + 2` (R68). -/
def State.advance (s : State) : State := { s with pc := s.pc + 2 }

/-- `PC <- PC - 2`: Fx0A's retry (R118), and the undoing of the pre-advance by a fault (R125). -/
def State.rewind (s : State) : State := { s with pc := s.pc - 2 }

/-- "Skip" is a further `PC <- PC + 2` (R84). -/
def State.skipIf (c : Bool) (s : State) : State := if c then s.advance else s

/-- `PC <- target`. -/
def State.jump (s : State) (target : Word) : State := { s with pc := target }

/-! ### Memory accesses (R51 to R53) -/

/-- The byte at an address, as any access sees it. -/
def State.readMem (s : State) (a : Nat) : Byte := s.mem.read s.font a

/-- Why an access raises a fault: its kind, and the offending address for the record's `info` (R123). -/
structure AccessFault where
  code : Fault
  addr : Nat
  deriving DecidableEq, Repr

/-- `MemRead(a, 1)` (R51, decision D4). -/
def State.memRead (s : State) (a : Nat) : Except AccessFault Byte :=
  if a > 0xFFF then .error ⟨.memRange, a⟩ else .ok (s.readMem a)

/-- `MemWrite(a, 1, b)` (R52, decisions D4 and D5). -/
def State.memWrite (s : State) (a : Nat) (b : Byte) : Except AccessFault State :=
  if a > 0xFFF then .error ⟨.memRange, a⟩
  else if a ≤ 0x04F then .error ⟨.fontWrite, a⟩
  else .ok { s with mem := s.mem.write s.font a b }

/-- `n` consecutive bytes from `a`, read in rising order (R107). -/
def State.readBytes (s : State) (a : Nat) : Nat → Except AccessFault (List Byte)
  | 0 => .ok []
  | n + 1 =>
    match s.memRead a with
    | .error e => .error e
    | .ok b =>
      match s.readBytes (a + 1) n with
      | .error e => .error e
      | .ok bs => .ok (b :: bs)

/-- Bytes written to consecutive addresses from `a`, in rising order (R107). -/
def State.storeBytes (s : State) (a : Nat) : List Byte → Except AccessFault State
  | [] => .ok s
  | b :: bs =>
    match s.memWrite a b with
    | .error e => .error e
    | .ok t => t.storeBytes (a + 1) bs

/-- `Fetch(PC)`: the big-endian word at PC, or none where PC is above 0xFFE (R53, decision D2). -/
def State.fetch (s : State) : Option Word :=
  if s.pc.toNat > 0xFFE then none
  else some (Word.ofBytes (s.readMem s.pc.toNat) (s.readMem (s.pc.toNat + 1)))

/-! ### The call stack (R27, R28) -/

/-- Push: write `Stack[SP]`, then increment SP; none where SP is 16. -/
def State.push (s : State) (w : Word) : Option State :=
  if h : s.sp.val < 16 then
    some { s with stack := s.stack.set s.sp.val w h, sp := ⟨s.sp.val + 1, by omega⟩ }
  else none

/-- Pop: decrement SP, then read `Stack[SP]`, which is not cleared; none where SP is 0. -/
def State.pop (s : State) : Option (Word × State) :=
  if h : 0 < s.sp.val then
    some (s.stack[s.sp.val - 1], { s with sp := ⟨s.sp.val - 1, by omega⟩ })
  else none

/-! ### The framebuffer (R31) -/

/-- `FB[c][r]`. -/
def Framebuffer.cell (fb : Framebuffer) (c : Fin 64) (r : Fin 32) : Bool := (fb.get c).get r

/-- `FB[c][r] <- not FB[c][r]`. -/
def Framebuffer.flip (fb : Framebuffer) (c : Fin 64) (r : Fin 32) : Framebuffer :=
  fb.set c.val ((fb.get c).set r.val (!fb.cell c r) r.isLt) c.isLt

/-- The framebuffer with every cell unlit. -/
def Framebuffer.blank : Framebuffer := Vector.replicate 64 (Vector.replicate 32 false)

/-! ### Taking a fault (R124, R125) -/

/-- The numbers of R123. -/
def Fault.number : Fault → Nat
  | .fetchRange => 1
  | .illegalOpcode => 2
  | .stackOverflow => 3
  | .stackUnderflow => 4
  | .memRange => 5
  | .fontWrite => 6
  | .keyRange => 7
  | .programTooLarge => 8

/-- Record a fault, which halts the core (R34, R126), and change nothing else (R125). -/
def State.recordFault (s : State) (code : Fault) (pc opcode : Option Word) (info : Option Nat) : State :=
  { s with fault := some ⟨code, pc, opcode, info⟩ }

/-- An instruction raises a fault. `s` is the state on entry to the instruction's rule, with PC pre-advanced. The
pre-advance is undone, so the state is the one before the step but for the record, which holds the instruction's own
address and its word (R124, R125, decision D10). The core has no handler and no return from one (R128). -/
def raiseFault (code : Fault) (i : Instr) (info : Option Nat) (s : State) : Host.Outcome State Fault Refusal :=
  .next (s.rewind.recordFault code (some s.rewind.pc) (some (encode i)) info)

/-- The end of an instruction that stores: its new state, or the fault of its first offending access. Since the fault
is raised in the entry state `s`, no byte written before that access remains (R125, decision D10). -/
def finish (i : Instr) (s : State) : Except AccessFault State → Host.Outcome State Fault Refusal
  | .ok t => .next t
  | .error e => raiseFault e.code i (some e.addr) s

/-! ### Placing an instruction where the next step fetches it -/

/-- Put a byte at an address, the font region included. This is no operation of the machine. -/
def State.poke (s : State) (a : Nat) (b : Byte) : State :=
  if h : a < Config.fontSize then { s with font := s.font.set a b h }
  else if a < Config.memSize then { s with mem := s.mem.write s.font a b }
  else s

/-- Put a word at PC, big-endian, and clear what would keep the next step from being that instruction's: a recorded
fault (R126) and pending host operations. This is no operation of the machine (assumption log 4). -/
def State.placeWord (s : State) (w : Word) : State :=
  { (s.poke s.pc.toNat w.hiByte).poke (s.pc.toNat + 1) w.loByte with fault := none, schedule := [] }

end Sys2Proof.Machine
end

