-- ==== Sys2Proof/Machine/Flags.lean ====
section
/-! DEFINITION. Every value that VF takes as a flag output (rule R23): carry, no-borrow, the bit shifted out, collision. -/

namespace Sys2Proof.Machine

/-- 1 if the exact sum is above 255, else 0 (R96). -/
def carryFlag (a b : Byte) : Byte := if a.toNat + b.toNat > 255 then 1 else 0

/-- NOT borrow of `a - b`: 1 if `a >= b`, else 0 (R97, R99). -/
def noBorrowFlag (a b : Byte) : Byte := if a.toNat ≥ b.toNat then 1 else 0

/-- The bit that a right shift by one shifts out: bit 0 (R98). -/
def lowBitFlag (a : Byte) : Byte := a &&& 0x01

/-- The bit that a left shift by one shifts out: bit 7 (R100). -/
def highBitFlag (a : Byte) : Byte := (a >>> 7) &&& 0x01

/-- 1 if a draw turned some lit cell off, else 0 (R112). -/
def collisionFlag (c : Bool) : Byte := if c then 1 else 0

end Sys2Proof.Machine
end

