-- ==== Sys2Proof/Machine/Arithmetic.lean ====
section
/-! DEFINITION. Register, arithmetic and logic instructions (rules R90 to R102). The statements of a rule run in its
order, each seeing the writes above it (R10, decision D16), which matters where `x` is 0xF. -/

namespace Sys2Proof.Machine

/-- 6xnn (R90). -/
def execLdImm (x : Reg) (nn : Byte) (s : State) : Host.Outcome State Fault Refusal := .next (s.writeV x nn)

/-- 7xnn (R91): wraps, and writes no flag. -/
def execAddImm (x : Reg) (nn : Byte) (s : State) : Host.Outcome State Fault Refusal :=
  .next (s.writeV x (s.readV x + nn))

/-- 8xy0 (R92). -/
def execLdReg (x y : Reg) (s : State) : Host.Outcome State Fault Refusal := .next (s.writeV x (s.readV y))

/-- 8xy1 (R93). -/
def execOrReg (x y : Reg) (s : State) : Host.Outcome State Fault Refusal :=
  .next (s.writeV x (s.readV x ||| s.readV y))

/-- 8xy2 (R94). -/
def execAndReg (x y : Reg) (s : State) : Host.Outcome State Fault Refusal :=
  .next (s.writeV x (s.readV x &&& s.readV y))

/-- 8xy3 (R95). -/
def execXorReg (x y : Reg) (s : State) : Host.Outcome State Fault Refusal :=
  .next (s.writeV x (s.readV x ^^^ s.readV y))

/-- 8xy4 (R96): Vx, then the carry. -/
def execAddReg (x y : Reg) (s : State) : Host.Outcome State Fault Refusal :=
  let a := s.readV x
  let b := s.readV y
  .next ((s.writeV x (a + b)).setFlag (carryFlag a b))

/-- 8xy5 (R97): Vx, then NOT borrow. -/
def execSubReg (x y : Reg) (s : State) : Host.Outcome State Fault Refusal :=
  let a := s.readV x
  let b := s.readV y
  .next ((s.writeV x (a - b)).setFlag (noBorrowFlag a b))

/-- 8xy6 (R98): VF, then Vx, which is read again after VF is written. `y` is not read. -/
def execShr (x _y : Reg) (s : State) : Host.Outcome State Fault Refusal :=
  let t := s.setFlag (lowBitFlag (s.readV x))
  .next (t.writeV x (t.readV x >>> 1))

/-- 8xy7 (R99): Vx, then NOT borrow. -/
def execSubnReg (x y : Reg) (s : State) : Host.Outcome State Fault Refusal :=
  let a := s.readV x
  let b := s.readV y
  .next ((s.writeV x (b - a)).setFlag (noBorrowFlag b a))

/-- 8xyE (R100): VF, then Vx, which is read again after VF is written. `y` is not read. -/
def execShl (x _y : Reg) (s : State) : Host.Outcome State Fault Refusal :=
  let t := s.setFlag (highBitFlag (s.readV x))
  .next (t.writeV x (t.readV x <<< 1))

/-- Cxnn (R101): a fresh draw for each execution (R33, decision D18). -/
def execRnd (x : Reg) (nn : Byte) (s : State) : Host.Outcome State Fault Refusal :=
  .next { s.writeV x (Config.rand8 s.draws &&& nn) with draws := s.draws + 1 }

end Sys2Proof.Machine
end

