-- ==== Sys2Proof/Machine/Operands.lean ====
section
/-! DEFINITION. The operand forms: zero extension, `I + k`, register blocks, key numbers, decimal digits, screen cells. -/

namespace Sys2Proof.Machine

/-- `zext_16(nnn)` (R67). -/
def zextAddr (nnn : Addr) : Word := nnn.setWidth 16

/-- `zext_16(b)` of a byte (R67). -/
def zextByte (b : Byte) : Word := b.setWidth 16

/-- The address of the k-th byte an instruction moves: `I + k`, exact and never wrapped (R107). -/
def State.dataAddr (s : State) (k : Nat) : Nat := s.i.toNat + k

/-- The register numbers in rising order. -/
def allRegs : List Reg := [0, 1, 2, 3, 4, 5, 6, 7] ++ [8, 9, 10, 11, 12, 13, 14, 15]

/-- The register block `V0..=Vx` of Fx55 and Fx65, V0 first (R109, R110). -/
def upTo (x : Reg) : List Reg := allRegs.take (x.val + 1)

/-- The key a register value names: none above 0x0F (R115, R116, decision D13). -/
def keyOf (b : Byte) : Option Reg := if h : b.toNat < 16 then some ⟨b.toNat, h⟩ else none

/-- `K[k]`. -/
def State.keyDown (s : State) (k : Reg) : Bool := s.keys.get k

/-- The least `k` with `K[k] = true`, if any key is held (R118). -/
def State.lowestKey (s : State) : Option Reg := allRegs.find? s.keyDown

/-- The decimal digits of a byte, hundreds first (R108). -/
def bcdDigits (b : Byte) : List Byte :=
  [BitVec.ofNat 8 (b.toNat / 100), BitVec.ofNat 8 (b.toNat / 10 % 10), BitVec.ofNat 8 (b.toNat % 10)]

/-- The column `(cx + b) mod 64` (R112). -/
def column (cx : Byte) (b : Nat) : Fin 64 := ⟨(cx.toNat + b) % 64, Nat.mod_lt _ (by decide)⟩

/-- The row `(cy + r) mod 32` (R112). -/
def rowOf (cy : Byte) (r : Nat) : Fin 32 := ⟨(cy.toNat + r) % 32, Nat.mod_lt _ (by decide)⟩

/-- The pixel of a sprite row at column offset `b`: bit `7 - b`, so that bit 7 is the leftmost (R7, R112). -/
def spriteBit (row : Byte) (b : Nat) : Bool := row.getLsbD (7 - b)

end Sys2Proof.Machine
end

