-- ==== Sys2Proof/Machine/ControlFlow.lean ====
section
/-! DEFINITION. Control flow (rules R80 to R89). Each meaning is entered with PC pre-advanced (R68). -/

namespace Sys2Proof.Machine

/-- 0000 (R80). -/
def execNop (s : State) : Host.Outcome State Fault Refusal := .next s

/-- 00EE (R81). -/
def execRet (s : State) : Host.Outcome State Fault Refusal :=
  match s.pop with
  | some (w, t) => .next (t.jump w)
  | none => raiseFault .stackUnderflow .ret none s

/-- 1nnn (R82). -/
def execJp (nnn : Addr) (s : State) : Host.Outcome State Fault Refusal := .next (s.jump (zextAddr nnn))

/-- 2nnn (R83): the pushed PC is the pre-advanced one. -/
def execCall (nnn : Addr) (s : State) : Host.Outcome State Fault Refusal :=
  match s.push s.pc with
  | some t => .next (t.jump (zextAddr nnn))
  | none => raiseFault .stackOverflow (.call nnn) none s

/-- 3xnn (R84). -/
def execSeImm (x : Reg) (nn : Byte) (s : State) : Host.Outcome State Fault Refusal :=
  .next (s.skipIf (s.readV x == nn))

/-- 4xnn (R85). -/
def execSneImm (x : Reg) (nn : Byte) (s : State) : Host.Outcome State Fault Refusal :=
  .next (s.skipIf (s.readV x != nn))

/-- 5xy_ (R86). -/
def execSeReg (x y : Reg) (s : State) : Host.Outcome State Fault Refusal :=
  .next (s.skipIf (s.readV x == s.readV y))

/-- 9xy_ (R87). -/
def execSneReg (x y : Reg) (s : State) : Host.Outcome State Fault Refusal :=
  .next (s.skipIf (s.readV x != s.readV y))

/-- Bnnn (R88): the sum is at most 0x10FE, so 16 bits hold it exactly (decision D1). -/
def execJpV0 (nnn : Addr) (s : State) : Host.Outcome State Fault Refusal :=
  .next (s.jump (zextByte (s.readV 0) + zextAddr nnn))

end Sys2Proof.Machine
end

