-- ==== Sys2Proof/Machine/Display.lean ====
section
/-! DEFINITION. Display instructions and the collision detector (rules R111 to R113). -/

namespace Sys2Proof.Machine

/-- 00E0 (R111). -/
def execCls (s : State) : Host.Outcome State Fault Refusal := .next { s with fb := Framebuffer.blank }

/-- A draw under way: the framebuffer so far, and whether a lit cell has been turned off (R112). -/
structure Draw where
  fb : Framebuffer
  collision : Bool
  deriving DecidableEq, Repr

/-- XOR one set sprite bit into a cell (R112). -/
def Draw.plot (d : Draw) (c : Fin 64) (r : Fin 32) : Draw :=
  { fb := d.fb.flip c r, collision := d.collision || d.fb.cell c r }

/-- One sprite row, offsets `b` as listed; a clear bit leaves its cell unchanged (R112). -/
def Draw.row (cx : Byte) (r : Fin 32) (bits : Byte) : List Nat → Draw → Draw
  | [], d => d
  | b :: bs, d => Draw.row cx r bits bs (if spriteBit bits b then d.plot (column cx b) r else d)

/-- All sprite rows, the first at row offset `r` (R112). -/
def Draw.rows (cx cy : Byte) : Nat → List Byte → Draw → Draw
  | _, [], d => d
  | r, bits :: rest, d => Draw.rows cx cy (r + 1) rest (Draw.row cx (rowOf cy r) bits [0, 1, 2, 3, 4, 5, 6, 7] d)

/-- Dxyn (R112): the coordinates and the sprite are read before any write (decision D17), and VF is written last. -/
def execDrw (x y : Reg) (n : Nat) (s : State) : Host.Outcome State Fault Refusal :=
  match s.readBytes (s.dataAddr 0) n with
  | .ok rows =>
    let d := Draw.rows (s.readV x) (s.readV y) 0 rows ⟨s.fb, false⟩
    .next (State.setFlag { s with fb := d.fb } (collisionFlag d.collision))
  | .error e => raiseFault e.code (.drw x y n) (some e.addr) s

end Sys2Proof.Machine
end

