-- ==== Sys2Proof/Machine/IndexMemory.lean ====
section
/-! DEFINITION. Address register, BCD and block transfers (rules R104 to R110). -/

namespace Sys2Proof.Machine

/-- Annn (R104). -/
def execLdI (nnn : Addr) (s : State) : Host.Outcome State Fault Refusal := .next { s with i := nnn }

/-- Fx1E (R105): modulo 4096, the width of `I` (decision D14). -/
def execAddI (x : Reg) (s : State) : Host.Outcome State Fault Refusal :=
  .next { s with i := BitVec.ofNat 12 (s.i.toNat + (s.readV x).toNat) }

/-- Fx29 (R106): all of Vx, not its low nibble. -/
def execLdF (x : Reg) (s : State) : Host.Outcome State Fault Refusal :=
  .next { s with i := BitVec.ofNat 12 ((s.readV x).toNat * 5) }

/-- Fx33, the BCD decoder (R108). -/
def execLdB (x : Reg) (s : State) : Host.Outcome State Fault Refusal :=
  finish (.ldB x) s (s.storeBytes (s.dataAddr 0) (bcdDigits (s.readV x)))

/-- Fx55 (R109). -/
def execStoreRegs (x : Reg) (s : State) : Host.Outcome State Fault Refusal :=
  finish (.storeRegs x) s (s.storeBytes (s.dataAddr 0) ((upTo x).map s.readV))

/-- Write a register block from bytes. -/
def State.writeRegs (s : State) : List Reg → List Byte → State
  | k :: ks, b :: bs => (s.writeV k b).writeRegs ks bs
  | _, _ => s

/-- Fx65 (R110). The loop reads only memory, so reading all bytes first cannot be told apart. -/
def execLoadRegs (x : Reg) (s : State) : Host.Outcome State Fault Refusal :=
  match s.readBytes (s.dataAddr 0) (x.val + 1) with
  | .ok bs => .next (s.writeRegs (upTo x) bs)
  | .error e => raiseFault e.code (.loadRegs x) (some e.addr) s

end Sys2Proof.Machine
end

