-- ==== Sys2Proof/Machine/KeypadTimers.lean ====
section
/-! DEFINITION. Keypad and timer instructions (rules R115 to R121). -/

namespace Sys2Proof.Machine

/-- Ex9E (R115). -/
def execSkp (x : Reg) (s : State) : Host.Outcome State Fault Refusal :=
  match keyOf (s.readV x) with
  | some k => .next (s.skipIf (s.keyDown k))
  | none => raiseFault .keyRange (.skp x) (some (s.readV x).toNat) s

/-- ExA1 (R116). -/
def execSknp (x : Reg) (s : State) : Host.Outcome State Fault Refusal :=
  match keyOf (s.readV x) with
  | some k => .next (s.skipIf (!s.keyDown k))
  | none => raiseFault .keyRange (.sknp x) (some (s.readV x).toNat) s

/-- Fx07 (R117). -/
def execLdVxDt (x : Reg) (s : State) : Host.Outcome State Fault Refusal := .next (s.writeV x s.dt)

/-- Fx0A (R118): with no key held, PC goes back to this instruction, which the next step fetches again (R121). -/
def execLdVxK (x : Reg) (s : State) : Host.Outcome State Fault Refusal :=
  match s.lowestKey with
  | some k => .next (s.writeV x (BitVec.ofNat 8 k.val))
  | none => .next s.rewind

/-- Fx15 (R119). -/
def execLdDtVx (x : Reg) (s : State) : Host.Outcome State Fault Refusal := .next { s with dt := s.readV x }

/-- Fx18 (R120). -/
def execLdStVx (x : Reg) (s : State) : Host.Outcome State Fault Refusal := .next { s with st := s.readV x }

end Sys2Proof.Machine
end

