-- ==== Sys2Proof/Machine/HostOps.lean ====
section
/-! DEFINITION. The host operations (rules R68, R134, R135, R139 to R143, R148, R149). -/

namespace Sys2Proof.Machine

/-- `ExecuteStep` (R68): fetch, pre-advance, decode, then the instruction's rule. A halted core refuses it (R126). -/
def executeStep (s : State) : Host.Outcome State Fault Refusal :=
  match s.fault with
  | some _ => .refused .halted
  | none =>
    match s.fetch with
    | none => .next (s.recordFault .fetchRange (some s.pc) none (some s.pc.toNat))
    | some op =>
      match decodeWord op with
      | .ok i => exec i s.advance
      | .error _ => .next (s.recordFault .illegalOpcode (some s.pc) (some op) none)

/-- A timer one tick later, floored at 0 (R134). -/
def countDown (t : Byte) : Byte := if t.toNat > 0 then t - 1 else t

/-- `TimerTick` (R134). -/
def State.timerTick (s : State) : State := { s with dt := countDown s.dt, st := countDown s.st }

/-- The beep result of a tick that starts in `s`: exactly when ST is 1 (R135). -/
def State.beep (s : State) : Bool := s.st == 1

/-- `SetKeys(k)` (R140). -/
def State.setKeys (s : State) (keys : Keys) : State := { s with keys := keys }

/-- `LoadProgram(bytes)` (R148, R149): it writes the program region directly, not through `MemWrite`. -/
def State.loadProgram (s : State) (bytes : List Byte) : State :=
  if bytes.length > Config.maxProgram then s.recordFault .programTooLarge none none (some bytes.length)
  else { s with mem := s.mem.writeBytes s.font Config.programBase bytes }

/-- What an operation that may raise a fault answers: ok, or the fault record (R139, R143). -/
def State.completion (t : State) : HostResult :=
  match t.fault with
  | none => .ok
  | some r => .faulted r

/-- A state-changing operation while halted has no step: it is refused (R126). -/
def State.unlessHalted (s : State) (t : State) (r : HostResult) :
    Host.Outcome (State × HostResult) Fault Refusal :=
  match s.fault with
  | none => .next (t, r)
  | some _ => .refused .halted

/-- One host operation: the state after it and what it answers (R139). -/
def hostOp (op : HostOp) (s : State) : Host.Outcome (State × HostResult) Fault Refusal :=
  match op with
  | .executeStep =>
    match executeStep s with
    | .next t => .next (t, t.completion)
    | .fault f => .fault f
    | .refused r => .refused r
  | .timerTick => s.unlessHalted s.timerTick (.beep s.beep)
  | .setKeys k => s.unlessHalted (s.setKeys k) .ok
  | .loadProgram bytes => s.unlessHalted (s.loadProgram bytes) (s.loadProgram bytes).completion
  | .readFramebuffer => .next (s, .framebuffer s.fb)
  | .readKeys => .next (s, .keys s.keys)
  | .readFault => .next (s, .fault s.fault)

/-- The state part of a host operation. -/
def performOp (op : HostOp) (s : State) : Host.Outcome State Fault Refusal :=
  match hostOp op s with
  | .next (t, _) => .next t
  | .fault f => .fault f
  | .refused r => .refused r

/-- One whole host operation: the next one scheduled, or `ExecuteStep` where none is (R5, decision D22). -/
def nextOp (s : State) : Host.Outcome State Fault Refusal :=
  match s.schedule with
  | [] => executeStep s
  | op :: rest => performOp op { s with schedule := rest }

end Sys2Proof.Machine
end

