-- ==== Sys2Proof/Machine/Step.lean ====
section
/-! DEFINITION. The step of the machine: one whole host operation (rule R5). -/

namespace Sys2Proof.Machine

/-- One step: "steps are whole host operations" (R5). With nothing scheduled it is `ExecuteStep`. -/
def step (s : State) : Host.Outcome State Fault Refusal := nextOp s

/-- The state with a table word placed where the very next step fetches and runs it (assumption log 4). -/
def State.withFetchWord (s : State) (nbits w : Nat) : State := s.placeWord (tableWord nbits w)

end Sys2Proof.Machine
end

