-- ==== Sys2Proof/Safety.lean ====
section
/-! DEFINITION. What counts as a safe run and as the end of one, and the invariant of the machine. -/

namespace Sys2Proof.Machine

/-- A state in which the core is not halted (R126). -/
def State.running (s : State) : Prop := s.fault = none

/-- "A run from a start state ends successfully at address `a`": PC is at a self-jump and no fault is recorded (R156,
decision D27). The core itself would execute the self-jump for ever. -/
def State.endsAt (s : State) (a : Nat) : Prop :=
  s.fault = none ∧ s.pc.toNat = a ∧ ∃ nnn : Addr, s.fetch = some (encode (.jp nnn)) ∧ nnn.toNat = a

/-- "A run ends faulted when `Fault != none`" (R156). -/
def State.endsFaulted (s : State) : Prop := s.fault ≠ none

/-- A state in which the next instruction is an Fx0A and no key is held: not an end (R121, R156). -/
def State.waitsForKey (s : State) : Prop :=
  s.fault = none ∧ (∃ x : Reg, s.fetch = some (encode (.ldVxK x))) ∧ ∀ k : Reg, s.keyDown k = false

/-- The invariant of the machine: memory is in canonical form, and PC and the return addresses stay where no write of
them wraps (R25, R27). -/
structure State.Inv (s : State) : Prop where
  /-- Memory's canonical form, with nothing listed in the font region (R47). -/
  mem_wf : s.mem.wf s.font = true
  /-- "Every value the rules can write is at most 0x10FE" (R25). -/
  pc_le : s.pc.toNat ≤ 0x10FE
  /-- A pushed PC is at most 0x1000, the value a call at 0xFFE pushes (R83). -/
  stack_le : ∀ j : Fin 16, (s.stack.get j).toNat ≤ 0x1000

end Sys2Proof.Machine
end

