-- ==== Sys2Proof/Certificates/Slice0/Obligations.lean ====
section
/-! DEFINITION. The statements about the machine, for the provers. An instruction's rule is entered with PC pre-advanced
(R68), so `exec i s` is stated for the pre-advanced state `s`: where PC is named, `s.pc - 2` is the instruction's own
address. A frame is written `t = { s with f := t.f }`: every field but `f`, PC and all of memory among them, is unchanged.
Where a docstring names a decision D<n> of spec/92_eei_decisions.md, the clause rests on the spec's own choice; and
every clause that raises a fault rests on D10 and D12 as well, which fix what a fault leaves and what its record holds. -/

open Sys2Proof Sys2Proof.Machine

namespace Sys2Proof.Machine

/-- The decoder reads the word with this number as the instruction. -/
def Reads (word : Nat) (i : Instr) : Prop := decodeWord (BitVec.ofNat 16 word) = .ok i

/-- The instruction, whose word has this number, raises a fault in `s`: the record holds the instruction's own address,
its word and `info`, PC is back at that address, and nothing else changes (R124, R125, on decisions D10 and D12). -/
def Raises (i : Instr) (word : Nat) (c : Fault) (info : Option Nat) (s : State) : Prop :=
  exec i s = .next { s with
    pc := s.pc - 2
    fault := some ⟨c, some (s.pc - 2), some (BitVec.ofNat 16 word), info⟩ }

/-- The n-row sprite at `I`, drawn at (Vx, Vy), has a set bit that lands on cell (c, r) (R112). -/
def SpriteSets (s : State) (x y : Reg) (n : Nat) (c : Fin 64) (r : Fin 32) : Prop :=
  ∃ j b : Nat, j < n ∧ b < 8 ∧ (s.readMem (s.dataAddr j)).getLsbD (7 - b) = true ∧
    c.val = ((s.readV x).toNat + b) % 64 ∧ r.val = ((s.readV y).toNat + j) % 32

/-- The registers an instruction may write: its destination, the block of Fx65, and VF where it is a flag output
(R21, R23). -/
def MayWriteV : Instr → Reg → Prop
  | .ldImm x _, k | .addImm x _, k | .ldReg x _, k | .orReg x _, k | .andReg x _, k | .xorReg x _, k
  | .rnd x _, k | .ldVxDt x, k | .ldVxK x, k => k = x
  | .addReg x _, k | .subReg x _, k | .shr x _, k | .subnReg x _, k | .shl x _, k => k = x ∨ k = vf
  | .drw _ _ _, k => k = vf
  | .loadRegs x, k => k ≤ x
  | _, _ => False

/-- A host operation that changes state, which a halted core refuses (R126). -/
def Changes : HostOp → Prop
  | .executeStep | .timerTick | .setKeys _ | .loadProgram _ => True
  | .readFramebuffer | .readKeys | .readFault => False

end Sys2Proof.Machine

/-! ### Encoding -/

/-- One word of each format, written out from the encodings of R66 and R70. -/
def Obligations.WrittenOutWordsDecode : Prop :=
  Reads 0x00E0 .cls ∧ Reads 0x00EE .ret ∧ Reads 0x1234 (.jp 0x234) ∧ Reads 0x3342 (.seImm 3 0x42) ∧
  Reads 0x8124 (.addReg 1 2) ∧ Reads 0x801E (.shl 0 1) ∧ Reads 0xB300 (.jpV0 0x300) ∧
  Reads 0xD125 (.drw 1 2 5) ∧ Reads 0xE59E (.skp 5) ∧ Reads 0xF255 (.storeRegs 2) ∧
  decodeWord 0x0123 = .error (.illegalOpcode 0x0123)

/-- R70: every well-formed instruction, with every value of its operands, is read back from its word. -/
def Obligations.DecodeOfEncodeIsTheInstruction : Prop :=
  ∀ i : Instr, i.wf = true → decodeWord (encode i) = .ok i

/-- R70, R71 (D6): a word that decodes gives a well-formed instruction, whose encoding is the word again, but for the
nibble that classes 5 and 9 ignore. -/
def Obligations.EncodeOfDecodeIsTheWord : Prop :=
  ∀ (op : Word) (i : Instr), decodeWord op = .ok i → i.wf = true ∧
    (encode i).toNat = if op.toNat / 0x1000 = 5 ∨ op.toNat / 0x1000 = 9 then op.toNat / 16 * 16 else op.toNat

/-- R69, R77: the 35 rows are pairwise disjoint, and the decoder takes the row that matches, whichever order they
stand in. The spec marks the disjointness as derived. -/
def Obligations.OpcodeRowsAreDisjoint : Prop :=
  opcodeTable.length = 35 ∧
  (∀ (op : Word) (j k : Nat) (r q : Row), opcodeTable[j]? = some r → opcodeTable[k]? = some q →
    r.accepts op = true → q.accepts op = true → j = k) ∧
  ∀ (op : Word) (r : Row), r ∈ opcodeTable → r.accepts op = true → decodeWord op = .ok (r.build op)

/-- R72 (D9): the words that decode to no instruction are exactly the rule's four classes. -/
def Obligations.IllegalWordsAreExactlyTheFourClasses : Prop :=
  ∀ op : Word, decodeWord op = .error (.illegalOpcode op) ↔
    (op.toNat / 0x1000 = 0 ∧ op.toNat ≠ 0x0000 ∧ op.toNat ≠ 0x00E0 ∧ op.toNat ≠ 0x00EE) ∨
    (op.toNat / 0x1000 = 8 ∧ op.toNat % 16 ∈ [0x8, 0x9, 0xA, 0xB, 0xC, 0xD, 0xF]) ∨
    (op.toNat / 0x1000 = 0xE ∧ op.toNat % 256 ∉ [0x9E, 0xA1]) ∨
    (op.toNat / 0x1000 = 0xF ∧ op.toNat % 256 ∉ [0x07, 0x0A, 0x15, 0x18, 0x1E, 0x29, 0x33, 0x55, 0x65])

/-! ### The step and its faults -/

/-- R53, R54 and the range check D2: a fetch reads two bytes big-endian from any PC up to 0xFFE, odd ones too (D3). -/
def Obligations.FetchReadsTwoBytesBigEndian : Prop :=
  ∀ s : State,
    (s.pc.toNat ≤ 0xFFE → ∃ op, s.fetch = some op ∧
      op.toNat = 256 * (s.readMem s.pc.toNat).toNat + (s.readMem (s.pc.toNat + 1)).toNat) ∧
    (0xFFE < s.pc.toNat → s.fetch = none)

/-- R68: a step of a running core with nothing scheduled fetches, advances PC by 2 and runs the decoded instruction;
a word that is no instruction, and a PC with no word, raise their faults (D2, D9, D12); a halted core has no step (D11).
That a step with nothing scheduled is `ExecuteStep` is the model's choice for the host's free order (D22, DESIGN CHOICE,
assumption log 3) and no rule of the spec. -/
def Obligations.StepRunsTheDecodedInstruction : Prop :=
  ∀ s : State, s.schedule = [] →
    (s.fault ≠ none → step s = .refused .halted) ∧
    (s.fault = none →
      (∀ op i, s.fetch = some op → decodeWord op = .ok i → step s = exec i { s with pc := s.pc + 2 }) ∧
      (∀ op e, s.fetch = some op → decodeWord op = .error e →
        step s = .next { s with fault := some ⟨.illegalOpcode, some s.pc, some op, none⟩ }) ∧
      (s.fetch = none →
        step s = .next { s with fault := some ⟨.fetchRange, some s.pc, none, some s.pc.toNat⟩ }))

/-- R5 and D22 with the model's own `schedule` (assumption log 3): a step is the next scheduled host operation. -/
def Obligations.StepPerformsTheNextScheduledOperation : Prop :=
  ∀ (s : State) (op : HostOp) (rest : List HostOp), s.schedule = op :: rest →
    (∀ t r, hostOp op { s with schedule := rest } = .next (t, r) → step s = .next t) ∧
    (hostOp op { s with schedule := rest } = .refused .halted → step s = .refused .halted)

/-- R131, R143: every instruction answers a next state in every state (where it raises a fault, the state with the
record), and so does every step of a running core: nothing but a halted core stops. -/
def Obligations.OnlyAHaltedCoreHasNoStep : Prop :=
  (∀ (i : Instr) (s : State), ∃ t, exec i s = .next t) ∧
  ∀ s : State, s.fault = none → ∃ t, step s = .next t

/-- R124, R125 (D10, D12): faults are precise. A step of a running core with nothing scheduled, which is `ExecuteStep`
by the model's choice (D22, assumption log 3), that raises a fault changes nothing but the record, which holds the PC of
before the step and the fetched word (none where nothing was fetched). An operation taken off the schedule is not spoken
of here. -/
def Obligations.AFaultChangesNothingButTheRecord : Prop :=
  ∀ (s t : State) (r : FaultRecord), s.fault = none → s.schedule = [] → step s = .next t → t.fault = some r →
    t = { s with fault := some r } ∧ r.pc = some s.pc ∧ r.opcode = s.fetch

/-- R123, R127: each fault kind has only the causes of the table, with the `info` it gives (decisions D2, D4, D5, D8,
D9, D12, D13). The first offending address of a block that runs past 0xFFF is 0x1000. It speaks of steps with nothing
scheduled, which are `ExecuteStep` by the model's choice (D22, assumption log 3). -/
def Obligations.FaultsHaveOnlyTheListedCauses : Prop :=
  ∀ (s t : State) (r : FaultRecord), s.fault = none → s.schedule = [] → step s = .next t → t.fault = some r →
    match r.code with
    | .fetchRange => 0xFFE < s.pc.toNat ∧ r.info = some s.pc.toNat
    | .illegalOpcode => (∃ op, s.fetch = some op ∧ decodeWord op = .error (.illegalOpcode op)) ∧ r.info = none
    | .stackOverflow =>
      (∃ op nnn, s.fetch = some op ∧ decodeWord op = .ok (.call nnn)) ∧ s.sp.val = 16 ∧ r.info = none
    | .stackUnderflow => (∃ op, s.fetch = some op ∧ decodeWord op = .ok .ret) ∧ s.sp.val = 0 ∧ r.info = none
    | .memRange => (∃ op i, s.fetch = some op ∧ decodeWord op = .ok i ∧
        ((∃ x y n, i = .drw x y n ∧ 0x1000 < s.i.toNat + n) ∨
          (∃ x, i = .ldB x ∧ 0xFFF < s.i.toNat + 2) ∨
          (∃ x, (i = .storeRegs x ∨ i = .loadRegs x) ∧ 0xFFF < s.i.toNat + x.val))) ∧ r.info = some 0x1000
    | .fontWrite => (∃ op x, s.fetch = some op ∧ (decodeWord op = .ok (.ldB x) ∨ decodeWord op = .ok (.storeRegs x))) ∧
        s.i.toNat ≤ 0x04F ∧ r.info = some s.i.toNat
    | .keyRange => ∃ op x, s.fetch = some op ∧ (decodeWord op = .ok (.skp x) ∨ decodeWord op = .ok (.sknp x)) ∧
        0x0F < (s.readV x).toNat ∧ r.info = some (s.readV x).toNat
    | .programTooLarge => False

/-- R126, R34 (D11): a halted core refuses every state-changing operation and still answers the reads, and no step of
it changes any state of the machine (only the model's own schedule moves on, past a read). -/
def Obligations.AHaltedCoreNeverChanges : Prop :=
  ∀ s : State, s.fault ≠ none →
    (∀ op, Changes op → hostOp op s = .refused .halted) ∧
    hostOp .readFramebuffer s = .next (s, .framebuffer s.fb) ∧
    hostOp .readKeys s = .next (s, .keys s.keys) ∧
    hostOp .readFault s = .next (s, .fault s.fault) ∧
    ∀ t, step s = .next t → t = { s with schedule := t.schedule }

/-! ### Control flow -/

/-- R80: 0000 changes nothing but the PC that the pre-advance has moved, and only the word 0x0000 is the no-op. -/
def Obligations.NopChangesNothing : Prop :=
  Reads 0x0000 .nop ∧ (∀ op, decodeWord op = .ok .nop → op = 0) ∧ ∀ s : State, exec .nop s = .next s

/-- R81 (D8): 00EE pops the return address into PC and leaves the entry; with an empty stack it faults. -/
def Obligations.ReturnPopsIntoPc : Prop :=
  Reads 0x00EE .ret ∧ ∀ s : State,
    (∀ j : Fin 16, s.sp.val = j.val + 1 → ∃ t, exec .ret s = .next t ∧
      t = { s with pc := t.pc, sp := t.sp } ∧ t.sp.val = j.val ∧ t.pc = s.stack.get j) ∧
    (s.sp.val = 0 → Raises .ret 0x00EE .stackUnderflow none s)

/-- R82: 1nnn sets PC to nnn and changes nothing else. -/
def Obligations.JumpSetsPc : Prop :=
  ∀ nnn : Addr, Reads (0x1000 + nnn.toNat) (.jp nnn) ∧ ∀ s : State, ∃ t, exec (.jp nnn) s = .next t ∧
    t = { s with pc := t.pc } ∧ t.pc.toNat = nnn.toNat

/-- R83 (D8): 2nnn pushes the pre-advanced PC and jumps; with all 16 entries in use it faults. -/
def Obligations.CallPushesTheReturnAddress : Prop :=
  ∀ nnn : Addr, Reads (0x2000 + nnn.toNat) (.call nnn) ∧ ∀ s : State,
    (∀ j : Fin 16, s.sp.val = j.val → ∃ t, exec (.call nnn) s = .next t ∧
      t = { s with pc := t.pc, sp := t.sp, stack := t.stack } ∧ t.pc.toNat = nnn.toNat ∧
      t.sp.val = j.val + 1 ∧ t.stack.get j = s.pc ∧ ∀ k, k ≠ j → t.stack.get k = s.stack.get k) ∧
    (s.sp.val = 16 → Raises (.call nnn) (0x2000 + nnn.toNat) .stackOverflow none s)

/-- R84, R85: 3xnn and 4xnn add a further 2 to PC exactly when Vx is, or is not, nn, and change nothing else. -/
def Obligations.ImmediateSkipsComparePlainBytes : Prop :=
  ∀ (x : Reg) (nn : Byte),
    Reads (0x3000 + 0x100 * x.val + nn.toNat) (.seImm x nn) ∧
    Reads (0x4000 + 0x100 * x.val + nn.toNat) (.sneImm x nn) ∧ ∀ s : State,
      (s.readV x = nn → exec (.seImm x nn) s = .next { s with pc := s.pc + 2 } ∧ exec (.sneImm x nn) s = .next s) ∧
      (s.readV x ≠ nn → exec (.seImm x nn) s = .next s ∧ exec (.sneImm x nn) s = .next { s with pc := s.pc + 2 })

/-- R86, R87, R71 (D6): 5xy_ and 9xy_ skip exactly when Vx and Vy are equal, or differ, and change nothing else, for
each of the 16 low nibbles. -/
def Obligations.RegisterSkipsIgnoreTheLowNibble : Prop :=
  ∀ (x y : Reg),
    (∀ n : Nat, n < 16 → Reads (0x5000 + 0x100 * x.val + 0x10 * y.val + n) (.seReg x y) ∧
      Reads (0x9000 + 0x100 * x.val + 0x10 * y.val + n) (.sneReg x y)) ∧ ∀ s : State,
      (s.readV x = s.readV y →
        exec (.seReg x y) s = .next { s with pc := s.pc + 2 } ∧ exec (.sneReg x y) s = .next s) ∧
      (s.readV x ≠ s.readV y →
        exec (.seReg x y) s = .next s ∧ exec (.sneReg x y) s = .next { s with pc := s.pc + 2 })

/-- R88 (D1): Bnnn sets PC to the exact sum of V0 and nnn, whatever bits 11 to 8 hold, and changes nothing else. -/
def Obligations.JumpPlusV0IsExact : Prop :=
  ∀ nnn : Addr, Reads (0xB000 + nnn.toNat) (.jpV0 nnn) ∧ ∀ s : State, ∃ t, exec (.jpV0 nnn) s = .next t ∧
    t = { s with pc := t.pc } ∧ t.pc.toNat = (s.readV 0).toNat + nnn.toNat

/-- R81 and R83 together, §8's round trip (W7): when a return finds the stack as a call left it, PC is the address
after the call, and the stack pointer is what it was. -/
def Obligations.ReturnUndoesCall : Prop :=
  ∀ (nnn : Addr) (s : State), s.sp.val < 16 → ∃ t, exec (.call nnn) s = .next t ∧
    ∀ u : State, u.sp = t.sp → u.stack = t.stack → exec .ret u = .next { u with pc := s.pc, sp := s.sp }

/-! ### Arithmetic and logic -/

/-- R90, R91: 6xnn sets Vx to nn. 7xnn adds nn to Vx modulo 256 and writes no flag: VF too is unchanged, unless x is
0xF. -/
def Obligations.ImmediatesWriteOnlyVx : Prop :=
  ∀ (x : Reg) (nn : Byte),
    Reads (0x6000 + 0x100 * x.val + nn.toNat) (.ldImm x nn) ∧
    Reads (0x7000 + 0x100 * x.val + nn.toNat) (.addImm x nn) ∧ ∀ s : State,
      (∃ t, exec (.ldImm x nn) s = .next t ∧ t = { s with v := t.v } ∧ t.readV x = nn ∧
        ∀ k, k ≠ x → t.readV k = s.readV k) ∧
      (∃ t, exec (.addImm x nn) s = .next t ∧ t = { s with v := t.v } ∧
        (t.readV x).toNat = ((s.readV x).toNat + nn.toNat) % 256 ∧ ∀ k, k ≠ x → t.readV k = s.readV k)

/-- R92 to R95: 8xy0 copies Vy, and 8xy1, 8xy2, 8xy3 take the bits of Vx and Vy together, one by one; only Vx is
written, so VF is not reset. -/
def Obligations.CopyAndLogicWriteOnlyVx : Prop :=
  ∀ x y : Reg,
    Reads (0x8000 + 0x100 * x.val + 0x10 * y.val) (.ldReg x y) ∧
    Reads (0x8001 + 0x100 * x.val + 0x10 * y.val) (.orReg x y) ∧
    Reads (0x8002 + 0x100 * x.val + 0x10 * y.val) (.andReg x y) ∧
    Reads (0x8003 + 0x100 * x.val + 0x10 * y.val) (.xorReg x y) ∧ ∀ s : State,
      (∃ t, exec (.ldReg x y) s = .next t ∧ t = { s with v := t.v } ∧ t.readV x = s.readV y ∧
        ∀ k, k ≠ x → t.readV k = s.readV k) ∧
      (∃ t, exec (.orReg x y) s = .next t ∧ t = { s with v := t.v } ∧
        (∀ b, (t.readV x).getLsbD b = ((s.readV x).getLsbD b || (s.readV y).getLsbD b)) ∧
        ∀ k, k ≠ x → t.readV k = s.readV k) ∧
      (∃ t, exec (.andReg x y) s = .next t ∧ t = { s with v := t.v } ∧
        (∀ b, (t.readV x).getLsbD b = ((s.readV x).getLsbD b && (s.readV y).getLsbD b)) ∧
        ∀ k, k ≠ x → t.readV k = s.readV k) ∧
      (∃ t, exec (.xorReg x y) s = .next t ∧ t = { s with v := t.v } ∧
        (∀ b, (t.readV x).getLsbD b = ((s.readV x).getLsbD b ^^ (s.readV y).getLsbD b)) ∧
        ∀ k, k ≠ x → t.readV k = s.readV k)

/-- R96: 8xy4 sets Vx to the sum modulo 256 and VF to the carry, which is written last (D16: so with x = 0xF the carry
remains). -/
def Obligations.AddSetsVxAndCarry : Prop :=
  ∀ x y : Reg, Reads (0x8004 + 0x100 * x.val + 0x10 * y.val) (.addReg x y) ∧ ∀ s : State,
    ∃ t, exec (.addReg x y) s = .next t ∧ t = { s with v := t.v } ∧
      (x ≠ vf → (t.readV x).toNat = ((s.readV x).toNat + (s.readV y).toNat) % 256) ∧
      (t.readV vf).toNat = (if (s.readV x).toNat + (s.readV y).toNat > 255 then 1 else 0) ∧
      ∀ k, k ≠ x → k ≠ vf → t.readV k = s.readV k

/-- R97, R99: 8xy5 sets Vx to Vx - Vy and 8xy7 to Vy - Vx, modulo 256, and VF to NOT borrow, which is written last
(D16: so with x = 0xF the flag remains). -/
def Obligations.SubtractionsSetVxAndNoBorrow : Prop :=
  ∀ x y : Reg,
    Reads (0x8005 + 0x100 * x.val + 0x10 * y.val) (.subReg x y) ∧
    Reads (0x8007 + 0x100 * x.val + 0x10 * y.val) (.subnReg x y) ∧ ∀ s : State,
      (∃ t, exec (.subReg x y) s = .next t ∧ t = { s with v := t.v } ∧
        (x ≠ vf → ((t.readV x).toNat : Int) = (((s.readV x).toNat : Int) - ((s.readV y).toNat : Int)) % 256) ∧
        (t.readV vf).toNat = (if (s.readV x).toNat ≥ (s.readV y).toNat then 1 else 0) ∧
        ∀ k, k ≠ x → k ≠ vf → t.readV k = s.readV k) ∧
      (∃ t, exec (.subnReg x y) s = .next t ∧ t = { s with v := t.v } ∧
        (x ≠ vf → ((t.readV x).toNat : Int) = (((s.readV y).toNat : Int) - ((s.readV x).toNat : Int)) % 256) ∧
        (t.readV vf).toNat = (if (s.readV y).toNat ≥ (s.readV x).toNat then 1 else 0) ∧
        ∀ k, k ≠ x → k ≠ vf → t.readV k = s.readV k)

/-- R98: 8xy6 shifts Vx right by one, VF takes bit 0, and `y` does not matter. With x = 0xF the flag is written first
and then shifted, so VF ends as 0 (D16). -/
def Obligations.ShiftRightTakesTheLowBit : Prop :=
  ∀ x y : Reg, Reads (0x8006 + 0x100 * x.val + 0x10 * y.val) (.shr x y) ∧ ∀ s : State,
    ∃ t, exec (.shr x y) s = .next t ∧ t = { s with v := t.v } ∧
      (x ≠ vf → (t.readV x).toNat = (s.readV x).toNat / 2 ∧ (t.readV vf).toNat = (s.readV x).toNat % 2) ∧
      (x = vf → (t.readV vf).toNat = 0) ∧
      ∀ k, k ≠ x → k ≠ vf → t.readV k = s.readV k

/-- R100: 8xyE shifts Vx left by one, VF takes bit 7, and `y` does not matter. With x = 0xF the flag is written first
and then shifted, so VF ends as 2 or 0 (D16). -/
def Obligations.ShiftLeftTakesTheHighBit : Prop :=
  ∀ x y : Reg, Reads (0x800E + 0x100 * x.val + 0x10 * y.val) (.shl x y) ∧ ∀ s : State,
    ∃ t, exec (.shl x y) s = .next t ∧ t = { s with v := t.v } ∧
      (x ≠ vf → (t.readV x).toNat = 2 * (s.readV x).toNat % 256 ∧ (t.readV vf).toNat = (s.readV x).toNat / 128) ∧
      (x = vf → (t.readV vf).toNat = if (s.readV vf).toNat ≥ 128 then 2 else 0) ∧
      ∀ k, k ≠ x → k ≠ vf → t.readV k = s.readV k

/-- R101, R33 (D18): Cxnn sets Vx to the next draw AND nn, whatever byte is drawn, and uses the draw up. -/
def Obligations.RandomIsAFreshDrawAndNn : Prop :=
  ∀ (x : Reg) (nn : Byte), Reads (0xC000 + 0x100 * x.val + nn.toNat) (.rnd x nn) ∧ ∀ s : State,
    ∃ t, exec (.rnd x nn) s = .next t ∧ t = { s with v := t.v, draws := s.draws + 1 } ∧
      (∀ b, (t.readV x).getLsbD b = ((Config.rand8 s.draws).getLsbD b && nn.getLsbD b)) ∧
      ∀ k, k ≠ x → t.readV k = s.readV k

/-! ### Address register, BCD and block transfers -/

/-- R104, R106: Annn sets I to nnn, and Fx29 sets I to the exact product of all of Vx and 5; each changes nothing
else. -/
def Obligations.LoadsOfISetOnlyI : Prop :=
  (∀ nnn : Addr, Reads (0xA000 + nnn.toNat) (.ldI nnn) ∧ ∀ s : State, exec (.ldI nnn) s = .next { s with i := nnn }) ∧
  ∀ x : Reg, Reads (0xF029 + 0x100 * x.val) (.ldF x) ∧ ∀ s : State, ∃ t, exec (.ldF x) s = .next t ∧
    t = { s with i := t.i } ∧ t.i.toNat = (s.readV x).toNat * 5

/-- R105 (D14): Fx1E adds Vx to I modulo 4096 and changes nothing else, VF included. -/
def Obligations.AddToAddressWrapsAt4096 : Prop :=
  ∀ x : Reg, Reads (0xF01E + 0x100 * x.val) (.addI x) ∧ ∀ s : State, ∃ t, exec (.addI x) s = .next t ∧
    t = { s with i := t.i } ∧ t.i.toNat = (s.i.toNat + (s.readV x).toNat) % 4096

/-- R108 (D4, D5): Fx33 stores the three decimal digits of Vx at I, I+1, I+2, and nothing else changes; in the font
region or past 0xFFF it faults and stores nothing. -/
def Obligations.BcdStoresThreeDigits : Prop :=
  ∀ x : Reg, Reads (0xF033 + 0x100 * x.val) (.ldB x) ∧ ∀ s : State,
    (0x050 ≤ s.i.toNat → s.i.toNat + 2 ≤ 0xFFF → ∃ t, exec (.ldB x) s = .next t ∧ t = { s with mem := t.mem } ∧
      (t.readMem (s.dataAddr 0)).toNat = (s.readV x).toNat / 100 ∧
      (t.readMem (s.dataAddr 1)).toNat = (s.readV x).toNat / 10 % 10 ∧
      (t.readMem (s.dataAddr 2)).toNat = (s.readV x).toNat % 10 ∧
      ∀ a, (∀ k, k < 3 → a ≠ s.dataAddr k) → t.readMem a = s.readMem a) ∧
    (s.i.toNat ≤ 0x04F → Raises (.ldB x) (0xF033 + 0x100 * x.val) .fontWrite (some s.i.toNat) s) ∧
    (0xFFE ≤ s.i.toNat → Raises (.ldB x) (0xF033 + 0x100 * x.val) .memRange (some 0x1000) s)

/-- R109 (D4, D5, D15): Fx55 stores V0 to Vx at I to I+x, and nothing else changes, I included; in the font region or
past 0xFFF it faults and stores nothing. -/
def Obligations.StoreBlockWritesV0ToVx : Prop :=
  ∀ x : Reg, Reads (0xF055 + 0x100 * x.val) (.storeRegs x) ∧ ∀ s : State,
    (0x050 ≤ s.i.toNat → s.i.toNat + x.val ≤ 0xFFF →
      ∃ t, exec (.storeRegs x) s = .next t ∧ t = { s with mem := t.mem } ∧
        (∀ k : Reg, k ≤ x → t.readMem (s.dataAddr k.val) = s.readV k) ∧
        ∀ a, (∀ k : Reg, k ≤ x → a ≠ s.dataAddr k.val) → t.readMem a = s.readMem a) ∧
    (s.i.toNat ≤ 0x04F → Raises (.storeRegs x) (0xF055 + 0x100 * x.val) .fontWrite (some s.i.toNat) s) ∧
    (0xFFF < s.i.toNat + x.val → 0x050 ≤ s.i.toNat →
      Raises (.storeRegs x) (0xF055 + 0x100 * x.val) .memRange (some 0x1000) s)

/-- R110 (D4, D15): Fx65 loads V0 to Vx from I to I+x, the font region included, and nothing else changes, I included;
past 0xFFF it faults and loads nothing. -/
def Obligations.LoadBlockReadsV0ToVx : Prop :=
  ∀ x : Reg, Reads (0xF065 + 0x100 * x.val) (.loadRegs x) ∧ ∀ s : State,
    (s.i.toNat + x.val ≤ 0xFFF → ∃ t, exec (.loadRegs x) s = .next t ∧ t = { s with v := t.v } ∧
      (∀ k : Reg, k ≤ x → t.readV k = s.readMem (s.dataAddr k.val)) ∧
      ∀ k : Reg, ¬ k ≤ x → t.readV k = s.readV k) ∧
    (0xFFF < s.i.toNat + x.val → Raises (.loadRegs x) (0xF065 + 0x100 * x.val) .memRange (some 0x1000) s)

/-- R61 (derived there from R45, R53, R58): two bytes that Fx55 stores are what the next fetch from there reads. -/
def Obligations.StoredBytesAreFetchedAsCode : Prop :=
  ∀ (x k : Reg) (s : State), 0x050 ≤ s.i.toNat → s.i.toNat + x.val ≤ 0xFFF → k < x →
    ∃ t, exec (.storeRegs x) s = .next t ∧ ∀ pc : Word, pc.toNat = s.dataAddr k.val →
      ∃ op, State.fetch { t with pc := pc } = some op ∧
        op.toNat = 256 * (s.readV k).toNat + (s.readV (k + 1)).toNat

/-! ### Display -/

/-- R111: 00E0 unlights every cell and changes nothing else. -/
def Obligations.ClearUnlightsEveryCell : Prop :=
  Reads 0x00E0 .cls ∧ ∀ s : State, ∃ t, exec .cls s = .next t ∧ t = { s with fb := t.fb } ∧
    ∀ c r, t.fb.cell c r = false

/-- R112 (D4, D17): Dxyn turns over exactly the cells its set bits land on, with coordinates that wrap, and VF says
whether one of them was lit; only VF and the framebuffer change. With the sprite past 0xFFF it faults and draws nothing. -/
def Obligations.DrawXorsTheSpriteAndReportsCollision : Prop :=
  ∀ (x y : Reg) (n : Nat), n < 16 → Reads (0xD000 + 0x100 * x.val + 0x10 * y.val + n) (.drw x y n) ∧ ∀ s : State,
    (s.i.toNat + n ≤ 0x1000 → ∃ t, exec (.drw x y n) s = .next t ∧ t = { s with fb := t.fb, v := t.v } ∧
      (∀ k, k ≠ vf → t.readV k = s.readV k) ∧
      (∀ c r, SpriteSets s x y n c r → t.fb.cell c r = !s.fb.cell c r) ∧
      (∀ c r, ¬ SpriteSets s x y n c r → t.fb.cell c r = s.fb.cell c r) ∧
      ((∃ c r, SpriteSets s x y n c r ∧ s.fb.cell c r = true) → t.readV vf = 1) ∧
      ((∀ c r, SpriteSets s x y n c r → s.fb.cell c r = false) → t.readV vf = 0)) ∧
    (0x1000 < s.i.toNat + n →
      Raises (.drw x y n) (0xD000 + 0x100 * x.val + 0x10 * y.val + n) .memRange (some 0x1000) s)

/-- R113 (derived there from R112): the same sprite at the same place twice, with nothing it depends on changed in
between, leaves the framebuffer as it was, and the second draw collides exactly when the first lit a cell. -/
def Obligations.DrawingTwiceRestoresTheScreen : Prop :=
  ∀ (x y : Reg) (n : Nat) (s : State), n < 16 → s.i.toNat + n ≤ 0x1000 →
    ∃ t, exec (.drw x y n) s = .next t ∧
      ∀ u : State, u.fb = t.fb → u.i = s.i → u.readV x = s.readV x → u.readV y = s.readV y →
        (∀ j, j < n → u.readMem (s.dataAddr j) = s.readMem (s.dataAddr j)) →
        ∃ w, exec (.drw x y n) u = .next w ∧ w.fb = s.fb ∧
          (w.readV vf = 1 ↔ ∃ c r, s.fb.cell c r = false ∧ t.fb.cell c r = true)

/-! ### Keypad and timers -/

/-- R115, R116 (D13): Ex9E and ExA1 skip exactly when key Vx is, or is not, held, and change nothing else, the key
included; with Vx above 0x0F they fault. -/
def Obligations.KeySkipsReadTheLatch : Prop :=
  ∀ x : Reg, Reads (0xE09E + 0x100 * x.val) (.skp x) ∧ Reads (0xE0A1 + 0x100 * x.val) (.sknp x) ∧ ∀ s : State,
    (∀ k : Reg, (s.readV x).toNat = k.val → s.keyDown k = true →
      exec (.skp x) s = .next { s with pc := s.pc + 2 } ∧ exec (.sknp x) s = .next s) ∧
    (∀ k : Reg, (s.readV x).toNat = k.val → s.keyDown k = false →
      exec (.skp x) s = .next s ∧ exec (.sknp x) s = .next { s with pc := s.pc + 2 }) ∧
    (0x0F < (s.readV x).toNat →
      Raises (.skp x) (0xE09E + 0x100 * x.val) .keyRange (some (s.readV x).toNat) s ∧
      Raises (.sknp x) (0xE0A1 + 0x100 * x.val) .keyRange (some (s.readV x).toNat) s)

/-- R117, R119, R120: Fx07 sets Vx to DT, Fx15 sets DT to Vx and Fx18 sets ST to Vx; each changes nothing else. -/
def Obligations.TimerTransfersCopyOneByte : Prop :=
  ∀ x : Reg, Reads (0xF007 + 0x100 * x.val) (.ldVxDt x) ∧ Reads (0xF015 + 0x100 * x.val) (.ldDtVx x) ∧
    Reads (0xF018 + 0x100 * x.val) (.ldStVx x) ∧ ∀ s : State,
      (∃ t, exec (.ldVxDt x) s = .next t ∧ t = { s with v := t.v } ∧ t.readV x = s.dt ∧
        ∀ k, k ≠ x → t.readV k = s.readV k) ∧
      exec (.ldDtVx x) s = .next { s with dt := s.readV x } ∧
      exec (.ldStVx x) s = .next { s with st := s.readV x }

/-- R118: Fx0A sets Vx to the least held key; with no key held it only moves PC back to its own address. -/
def Obligations.KeyWaitTakesTheLowestKey : Prop :=
  ∀ x : Reg, Reads (0xF00A + 0x100 * x.val) (.ldVxK x) ∧ ∀ s : State,
    (∀ k : Reg, s.keyDown k = true → (∀ j, j < k → s.keyDown j = false) →
      ∃ t, exec (.ldVxK x) s = .next t ∧ t = { s with v := t.v } ∧ (t.readV x).toNat = k.val ∧
        ∀ j, j ≠ x → t.readV j = s.readV j) ∧
    ((∀ k, s.keyDown k = false) → exec (.ldVxK x) s = .next { s with pc := s.pc - 2 })

/-- R118, R121 (derived there): a step that waits for a key leaves the whole state as it was, so the wait never ends by
itself; and with any latch in which some key is held, the step at the same place completes: Vx is the least key held, PC
moves past the instruction, and nothing else changes. It assumes a host that only issues `ExecuteStep`: nothing is
scheduled, and then a step is `ExecuteStep` by the model's choice (D22, assumption log 3). -/
def Obligations.KeyWaitLeavesTheStateAsItWas : Prop :=
  ∀ s : State, s.waitsForKey → s.schedule = [] → step s = .next s ∧
    ∀ (keys : Keys) (x : Reg), (∃ k : Reg, keys.get k = true) → s.fetch = some (encode (.ldVxK x)) →
      ∃ (k : Reg) (t : State), step { s with keys := keys } = .next t ∧
        t = { s with keys := keys, v := t.v, pc := t.pc } ∧ t.pc = s.pc + 2 ∧
        keys.get k = true ∧ (∀ j, j < k → keys.get j = false) ∧ (t.readV x).toNat = k.val ∧
        ∀ j, j ≠ x → t.readV j = s.readV j

/-- R155, R156 (D27): at the end of a run the self-jump repeats and changes nothing, and such a state neither waits for
a key nor is a faulted end. It assumes a host that only issues `ExecuteStep`: nothing is scheduled, and then a step is
`ExecuteStep` by the model's choice (D22, assumption log 3). -/
def Obligations.SelfJumpRepeatsForEver : Prop :=
  ∀ (s : State) (a : Nat), s.endsAt a → s.schedule = [] →
    step s = .next s ∧ ¬ s.waitsForKey ∧ ¬ s.endsFaulted ∧ a ≤ 0xFFE

/-! ### The host interface -/

/-- R134, R135: a tick counts DT and ST down by one each, floored at 0, changes nothing else, and answers a beep
exactly when ST was 1. -/
def Obligations.TickCountsDownToZero : Prop :=
  ∀ s : State, s.fault = none → ∃ t b, hostOp .timerTick s = .next (t, .beep b) ∧
    t = { s with dt := t.dt, st := t.st } ∧
    (0 < s.dt.toNat → t.dt.toNat + 1 = s.dt.toNat) ∧ (s.dt.toNat = 0 → t.dt.toNat = 0) ∧
    (0 < s.st.toNat → t.st.toNat + 1 = s.st.toNat) ∧ (s.st.toNat = 0 → t.st.toNat = 0) ∧
    (b = true ↔ s.st.toNat = 1)

/-- R140: `SetKeys(k)` sets every flag and changes nothing else, but not while halted. -/
def Obligations.SetKeysWritesTheLatch : Prop :=
  ∀ (s : State) (keys : Keys),
    (s.fault = none → ∃ t, hostOp (.setKeys keys) s = .next (t, .ok) ∧ t = { s with keys := t.keys } ∧
      ∀ k : Reg, t.keyDown k = keys.get k) ∧
    (s.fault ≠ none → hostOp (.setKeys keys) s = .refused .halted)

/-- R148, R149: `LoadProgram` copies the image to 0x200 on and changes nothing else; an image above 3584 bytes raises
the fault and writes nothing. That the record has no `pc` is V99's (assumption log 5). -/
def Obligations.LoadProgramCopiesTheImage : Prop :=
  ∀ (s : State) (bytes : List Byte), s.fault = none →
    (bytes.length ≤ 3584 → ∃ t, hostOp (.loadProgram bytes) s = .next (t, .ok) ∧ t = { s with mem := t.mem } ∧
      (∀ j (h : j < bytes.length), t.readMem (0x200 + j) = bytes[j]) ∧
      ∀ a, a < 0x200 ∨ 0x200 + bytes.length ≤ a → t.readMem a = s.readMem a) ∧
    (3584 < bytes.length → hostOp (.loadProgram bytes) s =
      .next ({ s with fault := some ⟨.programTooLarge, none, none, some bytes.length⟩ },
        .faulted ⟨.programTooLarge, none, none, some bytes.length⟩))

/-- R141, R142 and R143: the reads answer what they name and change nothing, and `ExecuteStep` answers ok or the fault
record. -/
def Obligations.HostReadsAndStepResult : Prop :=
  ∀ s : State,
    hostOp .readFramebuffer s = .next (s, .framebuffer s.fb) ∧
    hostOp .readKeys s = .next (s, .keys s.keys) ∧
    hostOp .readFault s = .next (s, .fault s.fault) ∧
    ∀ t, executeStep s = .next t →
      (t.fault = none → hostOp .executeStep s = .next (t, .ok)) ∧
      ∀ r, t.fault = some r → hostOp .executeStep s = .next (t, .faulted r)

/-! ### Reset -/

/-- R37 to R41: the registers, I, PC, the stack and the timers after initialization, whatever the font. -/
def Obligations.InitClearsTheRegisters : Prop :=
  ∀ font : Font,
    (∀ k, (State.init font).readV k = 0) ∧ (State.init font).i = 0 ∧ (State.init font).pc = 0x200 ∧
    (State.init font).sp.val = 0 ∧ (∀ j, (State.init font).stack.get j = 0) ∧
    (State.init font).dt = 0 ∧ (State.init font).st = 0

/-- R42: memory after initialization is the font at 0x000 to 0x04F and zeros at 0x050 to 0xFFF, whatever the font. -/
def Obligations.InitInstallsTheFontAndZeros : Prop :=
  ∀ font : Font,
    (∀ a (h : a < 80), (State.init font).readMem a = font[a]) ∧
    ∀ a, 80 ≤ a → a ≤ 0xFFF → (State.init font).readMem a = 0

/-- R43, R44 (D11, D20): after initialization every cell is unlit, no key is held and no fault is recorded. -/
def Obligations.InitClearsScreenKeysAndFault : Prop :=
  ∀ font : Font,
    (∀ c r, (State.init font).fb.cell c r = false) ∧ (∀ k, (State.init font).keyDown k = false) ∧
    (State.init font).fault = none

/-- The invariant of R25, R27, R47 holds after reset. -/
def Obligations.ResetMeetsTheInvariant : Prop := ∀ font : Font, (State.init font).Inv ∧ State.reset.Inv

/-! ### Rules about the whole machine -/

/-- From every state that meets it, every step, whichever host operation it is, keeps the invariant: memory stays in
canonical form with nothing listed in the font region (R47), PC stays at 0x10FE or below and return addresses at 0x1000
or below, so that no write of PC wraps (R25, D1). -/
def Obligations.EveryStepKeepsTheInvariant : Prop :=
  ∀ s t : State, s.Inv → step s = .next t → t.Inv

/-- R47: no step changes a byte of the font region. -/
def Obligations.NoStepWritesTheFont : Prop :=
  ∀ s t : State, step s = .next t → ∀ a, a < 0x050 → t.readMem a = s.readMem a

/-- R51, R52, R57 (D4, D5): a data write is allowed exactly at 0x050 to 0xFFF; a read after it gives the byte written,
and every other read is as before. -/
def Obligations.DataWritesAreReadBack : Prop :=
  ∀ (s : State) (a : Nat) (b : Byte),
    (0x050 ≤ a → a ≤ 0xFFF → ∃ t, s.memWrite a b = .ok t ∧ t = { s with mem := t.mem } ∧
      t.memRead a = .ok b ∧ ∀ a', a' ≠ a → t.memRead a' = s.memRead a') ∧
    (a ≤ 0x04F → s.memWrite a b = .error ⟨.fontWrite, a⟩) ∧
    (0xFFF < a → s.memWrite a b = .error ⟨.memRange, a⟩ ∧ s.memRead a = .error ⟨.memRange, a⟩)

/-- The canonical form of the model's memory: two memories that read alike are equal data. -/
def Obligations.MemoriesThatReadAlikeAreEqual : Prop :=
  ∀ (font : Font) (m m' : Memory), m.wf font = true → m'.wf font = true →
    (∀ a, a < 0x1000 → m.read font a = m'.read font a) → m = m'

/-- R23, R21: an instruction writes only its destination registers, and VF only where it is a flag output. -/
def Obligations.InstructionsWriteOnlyTheirRegisters : Prop :=
  ∀ (i : Instr) (s t : State) (k : Reg), exec i s = .next t → ¬ MayWriteV i k → t.readV k = s.readV k

/-- R24 (D14, D15): only Annn, Fx1E and Fx29 write I; a block transfer leaves it. -/
def Obligations.OnlyThreeInstructionsWriteI : Prop :=
  ∀ (i : Instr) (s t : State), exec i s = .next t → t.i ≠ s.i →
    (∃ nnn, i = .ldI nnn) ∨ (∃ x, i = .addI x) ∨ ∃ x, i = .ldF x

/-- R28: only 2nnn and 00EE touch the stack, and no other instruction reads it: with another stack and stack pointer it
does the same. -/
def Obligations.TheStackIsPrivateToCallAndReturn : Prop :=
  ∀ (i : Instr) (s t : State), exec i s = .next t → (∀ nnn, i ≠ .call nnn) → i ≠ .ret →
    t.sp = s.sp ∧ t.stack = s.stack ∧
    ∀ sp stack, exec i { s with sp := sp, stack := stack } = .next { t with sp := sp, stack := stack }

/-- R31, R32, R46: only 00E0 and Dxyn write the framebuffer, only Fx33 and Fx55 write memory, and no instruction writes
the keypad latch or the font. -/
def Obligations.ScreenMemoryAndKeysHaveTheirWriters : Prop :=
  ∀ (i : Instr) (s t : State), exec i s = .next t →
    (t.fb ≠ s.fb → i = .cls ∨ ∃ x y n, i = .drw x y n) ∧
    (t.mem ≠ s.mem → (∃ x, i = .ldB x) ∨ ∃ x, i = .storeRegs x) ∧
    t.keys = s.keys ∧ t.font = s.font

/-- R29, R30: only Fx15 writes DT and only Fx18 writes ST, and no instruction reads ST: with another ST an instruction
does the same. The spec marks the last point as derived. -/
def Obligations.NoInstructionReadsTheSoundTimer : Prop :=
  ∀ (i : Instr) (s t : State), exec i s = .next t →
    (t.dt ≠ s.dt → ∃ x, i = .ldDtVx x) ∧
    ((∀ x, i ≠ .ldStVx x) → t.st = s.st ∧ ∀ v, exec i { s with st := v } = .next { t with st := v }) ∧
    ∀ x, i = .ldStVx x → ∀ v, exec i { s with st := v } = .next t

/-! ### From reset to the first instruction -/

/-- R147 with R39, R42, R53 (D2) and R148: after initialization the first fetch is of the word at 0x200. That is 0x0000
with nothing loaded, and otherwise the first two bytes of the loaded image, the first one the high half. -/
def Obligations.TheFirstFetchIsOfTheLoadedProgram : Prop :=
  ∀ font : Font, (State.init font).fetch = some 0x0000 ∧
    ∀ (hi lo : Byte) (rest : List Byte), rest.length ≤ 3582 →
      ∃ t op, hostOp (.loadProgram (hi :: lo :: rest)) (State.init font) = .next (t, .ok) ∧ t.pc = 0x200 ∧
        t.fetch = some op ∧ op.toNat = 256 * hi.toNat + lo.toNat
end

