-- ==== Sys2Proof/Laws/Display.lean ====
section
/-! SUPPORT. What a draw does to each cell, and when it collides (rule R112). -/

namespace Sys2Proof.Machine

theorem Framebuffer.cell_flip (fb : Framebuffer) (c c' : Fin 64) (r r' : Fin 32) :
    (fb.flip c r).cell c' r' = if c' = c ∧ r' = r then !fb.cell c' r' else fb.cell c' r' := by
  by_cases hc : c' = c
  · subst hc
    by_cases hr : r' = r
    · subst hr; simp [Framebuffer.flip, Framebuffer.cell, Vector.get_eq_getElem]
    · have : r.val ≠ r'.val := fun e => hr (Fin.ext e.symm)
      simp [Framebuffer.flip, Framebuffer.cell, Vector.get_eq_getElem, this, hr]
  · have : c.val ≠ c'.val := fun e => hc (Fin.ext e.symm)
    simp [Framebuffer.flip, Framebuffer.cell, Vector.get_eq_getElem, this, hc]

@[simp] theorem Framebuffer.cell_blank (c : Fin 64) (r : Fin 32) : Framebuffer.blank.cell c r = false := by
  simp [Framebuffer.blank, Framebuffer.cell, Vector.get_eq_getElem]

/-- Equal cells are equal framebuffers. -/
theorem Framebuffer.ext_cell {fb fb' : Framebuffer} (h : ∀ c r, fb.cell c r = fb'.cell c r) : fb = fb' := by
  apply Vector.ext
  intro c hc
  apply Vector.ext
  intro r hr
  simpa [Framebuffer.cell, Vector.get_eq_getElem] using h ⟨c, hc⟩ ⟨r, hr⟩

/-- The cells that one sprite row sets, in drawing order. -/
def rowCells (cx : Byte) (r : Fin 32) (bits : Byte) (bs : List Nat) : List (Fin 64 × Fin 32) :=
  (bs.filter (spriteBit bits)).map fun b => (column cx b, r)

/-- The cells that a sprite sets, in drawing order, its first row at row offset `k`. -/
def spriteCells (cx cy : Byte) : Nat → List Byte → List (Fin 64 × Fin 32)
  | _, [] => []
  | k, bits :: rest =>
    rowCells cx (rowOf cy k) bits [0, 1, 2, 3, 4, 5, 6, 7] ++ spriteCells cx cy (k + 1) rest

/-- A draw as a list of single plots. -/
def Draw.plotAll (d : Draw) : List (Fin 64 × Fin 32) → Draw
  | [] => d
  | p :: ps => (d.plot p.1 p.2).plotAll ps

theorem Draw.plotAll_append (d : Draw) (ps qs : List (Fin 64 × Fin 32)) :
    d.plotAll (ps ++ qs) = (d.plotAll ps).plotAll qs := by
  induction ps generalizing d with
  | nil => rfl
  | cons p ps ih => exact ih _

theorem Draw.row_eq_plotAll (cx : Byte) (r : Fin 32) (bits : Byte) (bs : List Nat) (d : Draw) :
    Draw.row cx r bits bs d = d.plotAll (rowCells cx r bits bs) := by
  induction bs generalizing d with
  | nil => rfl
  | cons b bs ih =>
    rw [Draw.row, ih]
    by_cases h : spriteBit bits b <;> simp [rowCells, h, Draw.plotAll]

theorem Draw.rows_eq_plotAll (cx cy : Byte) (rows : List Byte) (k : Nat) (d : Draw) :
    Draw.rows cx cy k rows d = d.plotAll (spriteCells cx cy k rows) := by
  induction rows generalizing k d with
  | nil => rfl
  | cons bits rest ih => rw [Draw.rows, ih, Draw.row_eq_plotAll, spriteCells, Draw.plotAll_append]

/-- Plotting distinct cells: each is turned over once, and the draw collides when one of them was lit. -/
theorem Draw.plotAll_spec (ps : List (Fin 64 × Fin 32)) (hn : ps.Nodup) (d : Draw) :
    (∀ c r, (d.plotAll ps).fb.cell c r = if (c, r) ∈ ps then !d.fb.cell c r else d.fb.cell c r) ∧
      ((d.plotAll ps).collision = true ↔ d.collision = true ∨ ∃ p ∈ ps, d.fb.cell p.1 p.2 = true) := by
  induction ps generalizing d with
  | nil => simp [Draw.plotAll]
  | cons p ps ih =>
    obtain ⟨hp, hn⟩ := List.nodup_cons.mp hn
    obtain ⟨ih1, ih2⟩ := ih hn (d.plot p.1 p.2)
    have other : ∀ q ∈ ps, (d.plot p.1 p.2).fb.cell q.1 q.2 = d.fb.cell q.1 q.2 := by
      intro q hq
      have : ¬ (q.1 = p.1 ∧ q.2 = p.2) := fun e => hp (by rw [show p = q from Prod.ext e.1.symm e.2.symm]; exact hq)
      simp only [Draw.plot, Framebuffer.cell_flip, if_neg this]
    refine ⟨fun c r => ?_, ?_⟩
    · rw [Draw.plotAll, ih1]
      by_cases h : (c, r) ∈ ps
      · rw [if_pos h, other _ h, if_pos (List.mem_cons_of_mem _ h)]
      · rw [if_neg h]
        simp only [Draw.plot, Framebuffer.cell_flip, List.mem_cons, h, or_false, Prod.ext_iff]
    · rw [Draw.plotAll, ih2]
      have : (∃ q ∈ ps, (d.plot p.1 p.2).fb.cell q.1 q.2 = true) ↔ ∃ q ∈ ps, d.fb.cell q.1 q.2 = true :=
        ⟨fun ⟨q, hq, e⟩ => ⟨q, hq, by rwa [other q hq] at e⟩, fun ⟨q, hq, e⟩ => ⟨q, hq, by rwa [other q hq]⟩⟩
      rw [this]
      simp [Draw.plot, or_assoc]

/-! ### The cells of a sprite are distinct (R112, corner case (b)) -/

theorem column_inj (cx : Byte) {b b' : Nat} (h1 : b < 64) (h2 : b' < 64) (h : column cx b = column cx b') :
    b = b' := by
  have := congrArg Fin.val h
  simp only [column] at this
  omega

theorem rowOf_inj (cy : Byte) {r r' : Nat} (h1 : r < r' + 32) (h2 : r' < r + 32) (h : rowOf cy r = rowOf cy r') :
    r = r' := by
  have := congrArg Fin.val h
  simp only [rowOf] at this
  omega

theorem mem_rowCells (cx : Byte) (r : Fin 32) (bits : Byte) (bs : List Nat) (p : Fin 64 × Fin 32) :
    p ∈ rowCells cx r bits bs ↔ ∃ b ∈ bs, spriteBit bits b = true ∧ column cx b = p.1 ∧ r = p.2 := by
  simp [rowCells, Prod.ext_iff, and_assoc]

/-- A cell is set by the sprite exactly when some set bit of some row lands on it. -/
theorem mem_spriteCells (cx cy : Byte) (rows : List Byte) (k : Nat) (p : Fin 64 × Fin 32) :
    p ∈ spriteCells cx cy k rows ↔
      ∃ j b, ∃ h : j < rows.length, b < 8 ∧ spriteBit rows[j] b = true ∧ column cx b = p.1 ∧
        rowOf cy (k + j) = p.2 := by
  induction rows generalizing k with
  | nil => simp [spriteCells]
  | cons bits rest ih =>
    rw [spriteCells, List.mem_append, ih, mem_rowCells]
    have bound : ∀ b : Nat, b ∈ [0, 1, 2, 3, 4, 5, 6, 7] ↔ b < 8 := by
      intro b; simp; omega
    constructor
    · rintro (⟨b, hb, h1, h2, h3⟩ | ⟨j, b, hj, hb, h1, h2, h3⟩)
      · exact ⟨0, b, by simp, (bound b).mp hb, h1, h2, h3⟩
      · exact ⟨j + 1, b, by simpa using hj, hb, h1, h2, by rw [← h3]; congr 1; omega⟩
    · rintro ⟨j, b, hj, hb, h1, h2, h3⟩
      cases j with
      | zero => exact .inl ⟨b, (bound b).mpr hb, h1, h2, h3⟩
      | succ j => exact .inr ⟨j, b, by simpa using hj, hb, h1, h2, by rw [← h3]; congr 1; omega⟩

theorem nodup_rowCells (cx : Byte) (r : Fin 32) (bits : Byte) :
    (rowCells cx r bits [0, 1, 2, 3, 4, 5, 6, 7]).Nodup := by
  refine List.Nodup.map_on ?_ ((by decide : [0, 1, 2, 3, 4, 5, 6, 7].Nodup).filter _)
  intro b hb b' hb' e
  have h1 : b < 64 := by have := List.mem_of_mem_filter hb; simp at this; omega
  have h2 : b' < 64 := by have := List.mem_of_mem_filter hb'; simp at this; omega
  exact column_inj cx h1 h2 (Prod.ext_iff.mp e).1

theorem nodup_spriteCells (cx cy : Byte) (rows : List Byte) (k : Nat) (h : rows.length ≤ 32) :
    (spriteCells cx cy k rows).Nodup := by
  induction rows generalizing k with
  | nil => exact List.nodup_nil
  | cons bits rest ih =>
    simp only [List.length_cons] at h
    rw [spriteCells, List.nodup_append]
    refine ⟨nodup_rowCells cx _ bits, ih (k + 1) (by omega), ?_⟩
    intro p hp q hq e
    subst e
    obtain ⟨_, _, _, _, h2⟩ := (mem_rowCells ..).mp hp
    obtain ⟨j, _, hj, _, _, _, h3⟩ := (mem_spriteCells ..).mp hq
    have := rowOf_inj cy (by omega) (by omega) (h2.trans h3.symm)
    omega

end Sys2Proof.Machine
end

