-- ==== Sys2Proof/Laws/Encoding.lean ====
section
/-! SUPPORT. The formats of rule R66: their value as a number, their fields, and what a row's mask leaves of them. -/

namespace Sys2Proof

theorem Reg.toNat_bits (x : Reg) : x.bits.toNat = x.val := rfl

@[simp] theorem Reg.toFin_bits (x : Reg) : x.bits.toFin = x := rfl

/-! ### The value of a word -/

theorem Word.toNat_ofBytes (hi lo : Byte) : (Word.ofBytes hi lo).toNat = 256 * hi.toNat + lo.toNat := by
  rw [Word.ofBytes, BitVec.toNat_append, ← Nat.shiftLeft_add_eq_or_of_lt lo.isLt, Nat.shiftLeft_eq]
  omega

theorem fmtNNN_toNat (c : BitVec 4) (nnn : Addr) : (fmtNNN c nnn).toNat = 0x1000 * c.toNat + nnn.toNat := by
  show (c ++ nnn).toNat = _
  rw [BitVec.toNat_append, ← Nat.shiftLeft_add_eq_or_of_lt nnn.isLt, Nat.shiftLeft_eq]
  omega

theorem fmtXNN_toNat (c : BitVec 4) (x : Reg) (nn : Byte) :
    (fmtXNN c x nn).toNat = 0x1000 * c.toNat + 0x100 * x.val + nn.toNat := by
  show (c ++ (x.bits ++ nn)).toNat = _
  rw [BitVec.toNat_append, ← Nat.shiftLeft_add_eq_or_of_lt (x.bits ++ nn).isLt, Nat.shiftLeft_eq,
    BitVec.toNat_append, ← Nat.shiftLeft_add_eq_or_of_lt nn.isLt, Nat.shiftLeft_eq, Reg.toNat_bits]
  omega

theorem fmtXYN_toNat (c : BitVec 4) (x y : Reg) (n : BitVec 4) :
    (fmtXYN c x y n).toNat = 0x1000 * c.toNat + 0x100 * x.val + 0x10 * y.val + n.toNat := by
  show (c ++ (x.bits ++ (y.bits ++ n))).toNat = _
  rw [BitVec.toNat_append, ← Nat.shiftLeft_add_eq_or_of_lt (x.bits ++ (y.bits ++ n)).isLt, Nat.shiftLeft_eq,
    BitVec.toNat_append, ← Nat.shiftLeft_add_eq_or_of_lt (y.bits ++ n).isLt, Nat.shiftLeft_eq,
    BitVec.toNat_append, ← Nat.shiftLeft_add_eq_or_of_lt n.isLt, Nat.shiftLeft_eq, Reg.toNat_bits, Reg.toNat_bits]
  omega

/-! ### The fields of a word -/

theorem Word.x_val (op : Word) : op.x.val = op.toNat / 256 % 16 := by
  show (op.extractLsb' 8 4).toNat = _
  rw [BitVec.extractLsb'_toNat, Nat.shiftRight_eq_div_pow]

theorem Word.y_val (op : Word) : op.y.val = op.toNat / 16 % 16 := by
  show (op.extractLsb' 4 4).toNat = _
  rw [BitVec.extractLsb'_toNat, Nat.shiftRight_eq_div_pow]

theorem Word.n_eq (op : Word) : op.n = op.toNat % 16 := by
  rw [Word.n, BitVec.extractLsb'_toNat, Nat.shiftRight_eq_div_pow]
  simp

theorem Word.nn_toNat (op : Word) : op.nn.toNat = op.toNat % 256 := by
  rw [Word.nn, BitVec.extractLsb'_toNat, Nat.shiftRight_eq_div_pow]
  simp

theorem Word.nnn_toNat (op : Word) : op.nnn.toNat = op.toNat % 4096 := by
  rw [Word.nnn, BitVec.extractLsb'_toNat, Nat.shiftRight_eq_div_pow]
  simp

@[simp] theorem fmtNNN_nnn (c : BitVec 4) (nnn : Addr) : (fmtNNN c nnn).nnn = nnn := by
  apply BitVec.eq_of_toNat_eq
  rw [Word.nnn_toNat, fmtNNN_toNat]
  omega

@[simp] theorem fmtXNN_x (c : BitVec 4) (x : Reg) (nn : Byte) : (fmtXNN c x nn).x = x := by
  apply Fin.ext
  rw [Word.x_val, fmtXNN_toNat]
  omega

@[simp] theorem fmtXNN_nn (c : BitVec 4) (x : Reg) (nn : Byte) : (fmtXNN c x nn).nn = nn := by
  apply BitVec.eq_of_toNat_eq
  rw [Word.nn_toNat, fmtXNN_toNat]
  omega

@[simp] theorem fmtXYN_x (c : BitVec 4) (x y : Reg) (n : BitVec 4) : (fmtXYN c x y n).x = x := by
  apply Fin.ext
  rw [Word.x_val, fmtXYN_toNat]
  omega

@[simp] theorem fmtXYN_y (c : BitVec 4) (x y : Reg) (n : BitVec 4) : (fmtXYN c x y n).y = y := by
  apply Fin.ext
  rw [Word.y_val, fmtXYN_toNat]
  omega

@[simp] theorem fmtXYN_n (c : BitVec 4) (x y : Reg) (n : BitVec 4) : (fmtXYN c x y n).n = n.toNat := by
  rw [Word.n_eq, fmtXYN_toNat]
  omega

/-! ### Masks: what a row of R70 compares -/

theorem and_ones4 (c : BitVec 4) : c &&& 0xF = c := BitVec.and_allOnes

theorem and_ones8 (b : BitVec 8) : b &&& 0xFF = b := BitVec.and_allOnes

theorem fmtXNN_eq (c : BitVec 4) (x : Reg) (nn : Byte) : fmtXNN c x nn = fmtNNN c (x.bits ++ nn) := rfl

theorem fmtXYN_eq (c : BitVec 4) (x y : Reg) (n : BitVec 4) : fmtXYN c x y n = fmtXNN c x (y.bits ++ n) := rfl

/-- The mask of the rows with nothing fixed but the class. -/
theorem fmtNNN_mask (c : BitVec 4) (nnn : Addr) : fmtNNN c nnn &&& 0xF000 = fmtNNN c 0 := by
  show (c ++ nnn) &&& (0xF#4 ++ 0#12) = c ++ 0#12
  rw [BitVec.and_append, BitVec.and_zero]
  exact congrArg (· ++ 0#12) (and_ones4 c)

theorem fmtXNN_mask (c : BitVec 4) (x : Reg) (nn : Byte) : fmtXNN c x nn &&& 0xF000 = fmtNNN c 0 :=
  fmtNNN_mask c _

theorem fmtXYN_mask (c : BitVec 4) (x y : Reg) (n : BitVec 4) : fmtXYN c x y n &&& 0xF000 = fmtNNN c 0 :=
  fmtNNN_mask c _

/-- The mask of the rows with a function byte. -/
theorem fmtXNN_maskByte (c : BitVec 4) (x : Reg) (nn : Byte) : fmtXNN c x nn &&& 0xF0FF = fmtXNN c 0 nn := by
  show (c ++ (x.bits ++ nn)) &&& (0xF#4 ++ (0#4 ++ 0xFF#8)) = c ++ (0#4 ++ nn)
  rw [BitVec.and_append, BitVec.and_append, BitVec.and_zero]
  exact congrArg₂ (fun (c : BitVec 4) (b : BitVec 8) => c ++ ((0#4) ++ b)) (and_ones4 c) (and_ones8 nn)

/-- The mask of the rows with a function nibble. -/
theorem fmtXYN_maskNibble (c : BitVec 4) (x y : Reg) (n : BitVec 4) :
    fmtXYN c x y n &&& 0xF00F = fmtXYN c 0 0 n := by
  show (c ++ (x.bits ++ (y.bits ++ n))) &&& (0xF#4 ++ (0#4 ++ (0#4 ++ 0xF#4))) = c ++ (0#4 ++ (0#4 ++ n))
  rw [BitVec.and_append, BitVec.and_append, BitVec.and_append, BitVec.and_zero, BitVec.and_zero]
  exact congrArg₂ (fun (c : BitVec 4) (b : BitVec 4) => c ++ ((0#4) ++ ((0#4) ++ b))) (and_ones4 c) (and_ones4 n)

/-! ### Which row takes a word of which format -/

theorem accepts_fmtNNN {c : BitVec 4} {p : Word} {f : Word → Instr} (nnn : Addr) (h : fmtNNN c 0 = p) :
    Row.accepts ⟨p, 0xF000, f⟩ (fmtNNN c nnn) = true := by
  rw [Row.accepts, fmtNNN_mask, h]; exact beq_self_eq_true p

theorem accepts_fmtXNN {c : BitVec 4} {p : Word} {f : Word → Instr} (x : Reg) (nn : Byte) (h : fmtNNN c 0 = p) :
    Row.accepts ⟨p, 0xF000, f⟩ (fmtXNN c x nn) = true := accepts_fmtNNN _ h

theorem accepts_fmtXYN {c : BitVec 4} {p : Word} {f : Word → Instr} (x y : Reg) (n : BitVec 4)
    (h : fmtNNN c 0 = p) : Row.accepts ⟨p, 0xF000, f⟩ (fmtXYN c x y n) = true := accepts_fmtNNN _ h

theorem accepts_fmtX {c : BitVec 4} {p : Word} {f : Word → Instr} (x : Reg) {nn : Byte} (h : fmtXNN c 0 nn = p) :
    Row.accepts ⟨p, 0xF0FF, f⟩ (fmtXNN c x nn) = true := by
  rw [Row.accepts, fmtXNN_maskByte, h]; exact beq_self_eq_true p

theorem accepts_fmtXY {c : BitVec 4} {p : Word} {f : Word → Instr} (x y : Reg) {n : BitVec 4}
    (h : fmtXYN c 0 0 n = p) : Row.accepts ⟨p, 0xF00F, f⟩ (fmtXYN c x y n) = true := by
  rw [Row.accepts, fmtXYN_maskNibble, h]; exact beq_self_eq_true p

end Sys2Proof
end

