-- ==== Sys2Proof/Laws/Memory.lean ====
section
/-! SUPPORT. The laws of memory: read after write, every operation keeps the canonical form, equal reads are equal data. -/

namespace Sys2Proof.Machine

/-! ### Finding a byte after an update -/

theorem Memory.find_put (m : Memory) (k j : Nat) (b : Byte) :
    (m.put k b).find j = if k = j then some b else m.find j := by
  induction m with
  | nil => simp [Memory.put, Memory.find]
  | cons c m ih =>
    obtain ⟨a, c⟩ := c
    simp only [Memory.put]
    split
    · simp [Memory.find]
    · split
      · subst_vars
        simp only [Memory.find]
        split <;> simp_all
      · simp only [Memory.find, ih]
        split
        · subst_vars; simp_all
        · rfl

theorem Memory.find_drop (m : Memory) (k j : Nat) :
    (m.drop k).find j = if k = j then none else m.find j := by
  induction m with
  | nil => simp [Memory.drop, Memory.find]
  | cons c m ih =>
    obtain ⟨a, c⟩ := c
    simp only [Memory.drop]
    split
    · rw [ih]
      subst_vars
      simp only [Memory.find]
      split <;> simp_all
    · simp only [Memory.find, ih]
      split
      · subst_vars; rw [if_neg (Ne.symm ‹_›)]
      · rfl

/-- Read after write, in any memory: the byte written, and every other address as before. -/
theorem Memory.read_write (font : Font) (m : Memory) (a j : Nat) (b : Byte) :
    (m.write font a b).read font j = if j = a then b else m.read font j := by
  unfold Memory.write Memory.read
  split <;> rename_i h
  · rw [Memory.find_drop]
    by_cases e : j = a
    · subst e; simp [h]
    · simp [e, Ne.symm e]
  · rw [Memory.find_put]
    by_cases e : j = a
    · subst e; simp
    · simp [e, Ne.symm e]

theorem Memory.read_writeBytes (font : Font) (bs : List Byte) (m : Memory) (a j : Nat) :
    (m.writeBytes font a bs).read font j =
      if h : a ≤ j ∧ j < a + bs.length then bs[j - a]'(by omega) else m.read font j := by
  induction bs generalizing m a with
  | nil =>
    have : ¬ (a ≤ j ∧ j < a + ([] : List Byte).length) := by simp
    rw [dif_neg this]; rfl
  | cons b bs ih =>
    rw [Memory.writeBytes, ih, Memory.read_write]
    by_cases h1 : a + 1 ≤ j ∧ j < a + 1 + bs.length
    · have h2 : a ≤ j ∧ j < a + (b :: bs).length := by simp; omega
      rw [dif_pos h1, dif_pos h2, List.getElem_cons, dif_neg (by omega)]
      congr 1
    · rw [dif_neg h1]
      by_cases e : j = a
      · have h2 : a ≤ j ∧ j < a + (b :: bs).length := by simp; omega
        rw [dif_pos h2, List.getElem_cons, dif_pos (by omega), if_pos e]
      · have h2 : ¬ (a ≤ j ∧ j < a + (b :: bs).length) := by simp; omega
        rw [dif_neg h2, if_neg e]

/-! ### The canonical form -/

theorem Memory.wfAbove_cons (font : Font) (lo a : Nat) (b : Byte) (m : Memory) :
    Memory.wfAbove font lo ((a, b) :: m) = true ↔
      lo ≤ a ∧ a < Config.memSize ∧ b ≠ unlisted font a ∧ Memory.wfAbove font (a + 1) m = true := by
  simp [Memory.wfAbove, and_assoc]

theorem Memory.wfAbove_mono {font : Font} {lo lo' : Nat} {m : Memory} (h : lo' ≤ lo)
    (hm : m.wfAbove font lo = true) : m.wfAbove font lo' = true := by
  cases m with
  | nil => rfl
  | cons c m =>
    obtain ⟨a, b⟩ := c
    rw [Memory.wfAbove_cons] at hm ⊢
    exact ⟨by omega, hm.2⟩

theorem Memory.wfAbove_put {font : Font} {m : Memory} {lo k : Nat} {b : Byte} (hm : m.wfAbove font lo = true)
    (hlo : lo ≤ k) (hk : k < Config.memSize) (hb : b ≠ unlisted font k) :
    (m.put k b).wfAbove font lo = true := by
  induction m generalizing lo with
  | nil => simpa [Memory.put, Memory.wfAbove] using ⟨⟨hlo, by simpa using hk⟩, hb⟩
  | cons c m ih =>
    obtain ⟨a, c⟩ := c
    rw [Memory.wfAbove_cons] at hm
    obtain ⟨h1, h2, h3, h4⟩ := hm
    simp only [Memory.put]
    split
    · rw [Memory.wfAbove_cons, Memory.wfAbove_cons]
      exact ⟨hlo, hk, hb, by omega, h2, h3, h4⟩
    · split
      · subst_vars
        rw [Memory.wfAbove_cons]
        exact ⟨hlo, hk, hb, h4⟩
      · rw [Memory.wfAbove_cons]
        exact ⟨h1, h2, h3, ih h4 (by omega)⟩

theorem Memory.wfAbove_drop {font : Font} {m : Memory} {lo : Nat} (k : Nat) (hm : m.wfAbove font lo = true) :
    (m.drop k).wfAbove font lo = true := by
  induction m generalizing lo with
  | nil => rfl
  | cons c m ih =>
    obtain ⟨a, c⟩ := c
    rw [Memory.wfAbove_cons] at hm
    obtain ⟨h1, h2, h3, h4⟩ := hm
    simp only [Memory.drop]
    split
    · exact Memory.wfAbove_mono (by omega) (ih h4)
    · rw [Memory.wfAbove_cons]
      exact ⟨h1, h2, h3, ih h4⟩

/-- A write outside the font region keeps the canonical form. -/
theorem Memory.wf_write {font : Font} {m : Memory} {a : Nat} (b : Byte) (hm : m.wf font = true)
    (h1 : Config.fontSize ≤ a) (h2 : a < Config.memSize) : (m.write font a b).wf font = true := by
  unfold Memory.write
  split
  · exact Memory.wfAbove_drop a hm
  · exact Memory.wfAbove_put hm h1 h2 ‹_›

theorem Memory.wf_writeBytes {font : Font} (bs : List Byte) {m : Memory} {a : Nat} (hm : m.wf font = true)
    (h1 : Config.fontSize ≤ a) (h2 : a + bs.length ≤ Config.memSize) :
    (m.writeBytes font a bs).wf font = true := by
  induction bs generalizing m a with
  | nil => exact hm
  | cons b bs ih =>
    simp only [List.length_cons] at h2
    exact ih (Memory.wf_write b hm h1 (by omega)) (by omega) (by omega)

/-- The canonical form does not depend on the font's bytes, since the font region is never listed. -/
theorem Memory.wfAbove_font (font font' : Font) (m : Memory) {lo : Nat} (h : Config.fontSize ≤ lo) :
    m.wfAbove font lo = m.wfAbove font' lo := by
  induction m generalizing lo with
  | nil => rfl
  | cons c m ih =>
    obtain ⟨a, b⟩ := c
    simp only [Memory.wfAbove]
    by_cases hlo : lo ≤ a
    · have e : unlisted font a = unlisted font' a := by
        simp only [unlisted]
        rw [dif_neg (by omega), dif_neg (by omega)]
      rw [e, ih (lo := a + 1) (by omega)]
    · simp [hlo]

theorem Memory.find_below {font : Font} {m : Memory} {lo j : Nat} (hm : m.wfAbove font lo = true) (h : j < lo) :
    m.find j = none := by
  induction m generalizing lo with
  | nil => rfl
  | cons c m ih =>
    obtain ⟨a, b⟩ := c
    rw [Memory.wfAbove_cons] at hm
    simp only [Memory.find]
    rw [if_neg (by omega)]
    exact ih hm.2.2.2 (by omega)

end Sys2Proof.Machine
end

