-- ==== Sys2Proof/Laws/Ops.lean ====
section
/-! SUPPORT. One law per shared operation: what each memory access, stack operation, fetch and fault can do. -/

namespace Sys2Proof.Machine

/-! ### Reading (R51, R107) -/

theorem State.memRead_ok (s : State) {a : Nat} (h : a ≤ 0xFFF) : s.memRead a = .ok (s.readMem a) := by
  rw [State.memRead, if_neg (by omega)]

theorem State.memRead_error (s : State) {a : Nat} (h : 0xFFF < a) : s.memRead a = .error ⟨.memRange, a⟩ := by
  rw [State.memRead, if_pos h]

/-- A block that ends inside memory is read byte by byte. -/
theorem State.readBytes_ok (s : State) (n : Nat) {a : Nat} (h : a + n ≤ 0x1000) :
    s.readBytes a n = .ok ((List.range n).map fun k => s.readMem (a + k)) := by
  induction n generalizing a with
  | zero => rfl
  | succ n ih =>
    rw [State.readBytes, s.memRead_ok (by omega), ih (by omega), List.range_succ_eq_map]
    simp [Function.comp_def, Nat.add_comm, Nat.add_left_comm]

/-- A block that runs past 0xFFF faults at 0x1000, its first address beyond memory. -/
theorem State.readBytes_error (s : State) (n : Nat) {a : Nat} (h1 : a ≤ 0x1000) (h2 : 0x1000 < a + n) :
    s.readBytes a n = .error ⟨.memRange, 0x1000⟩ := by
  induction n generalizing a with
  | zero => omega
  | succ n ih =>
    rw [State.readBytes]
    by_cases ha : a = 0x1000
    · rw [s.memRead_error (by omega), ha]
    · rw [s.memRead_ok (by omega), ih (by omega) (by omega)]

/-! ### Writing (R52, R107) -/

theorem State.memWrite_ok (s : State) (b : Byte) {a : Nat} (h1 : 0x050 ≤ a) (h2 : a ≤ 0xFFF) :
    s.memWrite a b = .ok { s with mem := s.mem.write s.font a b } := by
  rw [State.memWrite, if_neg (by omega), if_neg (by omega)]

theorem State.memWrite_range (s : State) (b : Byte) {a : Nat} (h : 0xFFF < a) :
    s.memWrite a b = .error ⟨.memRange, a⟩ := by
  rw [State.memWrite, if_pos h]

theorem State.memWrite_font (s : State) (b : Byte) {a : Nat} (h : a ≤ 0x04F) :
    s.memWrite a b = .error ⟨.fontWrite, a⟩ := by
  rw [State.memWrite, if_neg (by omega), if_pos h]

/-- A block inside the writable region is written as a whole, and nothing else changes. -/
theorem State.storeBytes_ok (bs : List Byte) (s : State) {a : Nat} (h1 : 0x050 ≤ a) (h2 : a + bs.length ≤ 0x1000) :
    s.storeBytes a bs = .ok { s with mem := s.mem.writeBytes s.font a bs } := by
  induction bs generalizing s a with
  | nil => rfl
  | cons b bs ih =>
    simp only [List.length_cons] at h2
    rw [State.storeBytes, s.memWrite_ok b h1 (by omega)]
    exact ih _ (by omega) (by omega)

/-- A block that starts in the font region faults at its first address. -/
theorem State.storeBytes_font (s : State) (b : Byte) (bs : List Byte) {a : Nat} (h : a ≤ 0x04F) :
    s.storeBytes a (b :: bs) = .error ⟨.fontWrite, a⟩ := by
  rw [State.storeBytes, s.memWrite_font b h]

/-- A block that runs past 0xFFF faults at 0x1000, its first address beyond memory. -/
theorem State.storeBytes_range (bs : List Byte) (s : State) {a : Nat} (h1 : 0x050 ≤ a) (h2 : a ≤ 0x1000)
    (h3 : 0x1000 < a + bs.length) : s.storeBytes a bs = .error ⟨.memRange, 0x1000⟩ := by
  induction bs generalizing s a with
  | nil => simp only [List.length_nil] at h3; omega
  | cons b bs ih =>
    simp only [List.length_cons] at h3
    rw [State.storeBytes]
    by_cases ha : a = 0x1000
    · rw [s.memWrite_range b (by omega), ha]
    · rw [s.memWrite_ok b h1 (by omega)]
      exact ih _ (by omega) (by omega) (by omega)

/-- What memory reads as after a block is written. -/
theorem State.readMem_writeBytes (s : State) (a j : Nat) (bs : List Byte) :
    State.readMem { s with mem := s.mem.writeBytes s.font a bs } j =
      if h : a ≤ j ∧ j < a + bs.length then bs[j - a]'(by omega) else s.readMem j :=
  Memory.read_writeBytes s.font bs s.mem a j

/-! ### Fetch (R53) -/

theorem State.fetch_ok (s : State) (h : s.pc.toNat ≤ 0xFFE) :
    s.fetch = some (Word.ofBytes (s.readMem s.pc.toNat) (s.readMem (s.pc.toNat + 1))) := by
  rw [State.fetch, if_neg (by omega)]

theorem State.fetch_none (s : State) (h : 0xFFE < s.pc.toNat) : s.fetch = none := by
  rw [State.fetch, if_pos h]

theorem State.pc_le_of_fetch {s : State} {op : Word} (h : s.fetch = some op) : s.pc.toNat ≤ 0xFFE := by
  by_contra hc
  rw [s.fetch_none (by omega)] at h
  cases h

/-! ### The stack (R27) -/

theorem State.push_ok (s : State) (w : Word) (h : s.sp.val < 16) :
    s.push w = some { s with stack := s.stack.set s.sp.val w h, sp := ⟨s.sp.val + 1, by omega⟩ } := by
  rw [State.push, dif_pos h]

theorem State.push_full (s : State) (w : Word) (h : s.sp.val = 16) : s.push w = none := by
  rw [State.push, dif_neg (by omega)]

theorem State.pop_ok (s : State) (h : 0 < s.sp.val) :
    s.pop = some (s.stack[s.sp.val - 1], { s with sp := ⟨s.sp.val - 1, by omega⟩ }) := by
  rw [State.pop, dif_pos h]

theorem State.pop_empty (s : State) (h : s.sp.val = 0) : s.pop = none := by
  rw [State.pop, dif_neg (by omega)]

/-! ### Faults (R124, R125) -/

/-- A fault raised by an instruction leaves the state of before the step, but for the record. -/
theorem raiseFault_advance (c : Fault) (i : Instr) (info : Option Nat) (s : State) :
    raiseFault c i info s.advance =
      .next { s with fault := some ⟨c, some s.pc, some (encode i), info⟩ } := by
  rw [raiseFault, State.rewind_advance]; rfl

theorem finish_ok (i : Instr) (s t : State) : finish i s (.ok t) = .next t := rfl

theorem finish_error (i : Instr) (s : State) (e : AccessFault) :
    finish i s (.error e) = raiseFault e.code i (some e.addr) s := rfl

end Sys2Proof.Machine
end

