-- ==== Sys2Proof/Laws/Operands.lean ====
section
/-! SUPPORT. The laws of the operand forms: register blocks, key numbers, screen coordinates, flags. -/

namespace Sys2Proof.Machine

/-! ### Register blocks (R109, R110) -/

theorem length_upTo (x : Reg) : (upTo x).length = x.val + 1 := by
  revert x; decide

/-- The k-th register of `V0..=Vx` is Vk. -/
theorem getElem_upTo (x : Reg) (k : Nat) (h : k < (upTo x).length) :
    (upTo x)[k] = ⟨k, by rw [length_upTo] at h; omega⟩ := by
  have key : ∀ (x : Reg) (k : Fin 16), k.val ≤ x.val → (upTo x)[k.val]? = some k := by decide
  have hl := h
  rw [length_upTo] at hl
  have := key x ⟨k, by omega⟩ (by simp; omega)
  simpa [List.getElem?_eq_getElem h] using this

theorem State.writeRegs_frame (ks : List Reg) (bs : List Byte) (s : State) :
    s.writeRegs ks bs = { s with v := (s.writeRegs ks bs).v } := by
  induction ks generalizing s bs with
  | nil => rfl
  | cons k ks ih =>
    cases bs with
    | nil => rfl
    | cons b bs =>
      rw [State.writeRegs]
      exact ih bs (s.writeV k b)

/-- Writing a block of registers gives each its byte and leaves the others. -/
theorem State.readV_writeRegs (ks : List Reg) (bs : List Byte) (s : State) (hl : ks.length = bs.length)
    (hn : ks.Nodup) (y : Reg) :
    (∀ k (h : k < ks.length), ks[k] = y → (s.writeRegs ks bs).readV y = bs[k]'(by omega)) ∧
      (y ∉ ks → (s.writeRegs ks bs).readV y = s.readV y) := by
  induction ks generalizing s bs with
  | nil => exact ⟨fun k h => absurd h (by simp), fun _ => rfl⟩
  | cons x ks ih =>
    cases bs with
    | nil => simp at hl
    | cons b bs =>
      obtain ⟨hx, hn⟩ := List.nodup_cons.mp hn
      obtain ⟨ih1, ih2⟩ := ih bs (s.writeV x b) (by simpa using hl) hn
      refine ⟨fun k h e => ?_, fun h => ?_⟩
      · cases k with
        | zero =>
          simp only [List.getElem_cons_zero] at e ⊢
          subst e
          rw [State.writeRegs, ih2 hx, State.readV_writeV_self]
        | succ k =>
          simp only [List.getElem_cons_succ] at e ⊢
          exact ih1 k (by simpa using h) e
      · simp only [List.mem_cons, not_or] at h
        rw [State.writeRegs, ih2 h.2, State.readV_writeV_ne _ h.1]

theorem nodup_upTo (x : Reg) : (upTo x).Nodup := by revert x; decide

theorem mem_upTo (x y : Reg) : y ∈ upTo x ↔ y.val ≤ x.val := by revert x y; decide

/-! ### Keys (R115, R118) -/

theorem keyOf_some (b : Byte) (h : b.toNat < 16) : keyOf b = some ⟨b.toNat, h⟩ := by
  rw [keyOf, dif_pos h]

theorem keyOf_none (b : Byte) (h : 16 ≤ b.toNat) : keyOf b = none := by
  rw [keyOf, dif_neg (by omega)]

theorem mem_allRegs (k : Reg) : k ∈ allRegs := by revert k; decide

theorem State.lowestKey_none (s : State) : s.lowestKey = none ↔ ∀ k, s.keyDown k = false := by
  simp [State.lowestKey, mem_allRegs]

/-- The lowest held key: it is held, and no lower one is. -/
theorem State.lowestKey_some (s : State) (k : Reg) :
    s.lowestKey = some k ↔ s.keyDown k = true ∧ ∀ j, j < k → s.keyDown j = false := by
  have sorted : allRegs.Pairwise (· < ·) := by decide
  have first : ∀ (l : List Reg), l.Pairwise (· < ·) → ∀ k, l.find? s.keyDown = some k → ∀ j ∈ l, j < k →
      s.keyDown j = false := by
    intro l
    induction l with
    | nil => simp
    | cons a l ih =>
      intro hp k hk j hj hjk
      rw [List.pairwise_cons] at hp
      rw [List.find?_cons] at hk
      split at hk
      · cases hk
        rcases List.mem_cons.mp hj with rfl | hj
        · exact absurd hjk (lt_irrefl _)
        · exact absurd hjk (not_lt.mpr (le_of_lt (hp.1 j hj)))
      · rcases List.mem_cons.mp hj with rfl | hj
        · simpa using ‹_›
        · exact ih hp.2 k hk j hj hjk
  constructor
  · intro h
    exact ⟨List.find?_some h, fun j hj => first allRegs sorted k h j (mem_allRegs j) hj⟩
  · rintro ⟨h1, h2⟩
    cases h : s.lowestKey with
    | none => rw [(State.lowestKey_none s).mp h k] at h1; cases h1
    | some j =>
      have hj : s.keyDown j = true := List.find?_some h
      have hmin := first allRegs sorted j h k (mem_allRegs k)
      rcases lt_trichotomy j k with hlt | rfl | hgt
      · rw [h2 j hlt] at hj; cases hj
      · rfl
      · rw [hmin hgt] at h1; cases h1

/-! ### Addresses and screen cells -/

theorem State.dataAddr_lt (s : State) (k : Nat) : s.dataAddr k < 0x1000 + k := by
  have := s.i.isLt
  simp only [State.dataAddr]; omega

@[simp] theorem zextAddr_toNat (nnn : Addr) : (zextAddr nnn).toNat = nnn.toNat := by
  have := nnn.isLt
  simp only [zextAddr, BitVec.toNat_setWidth]; omega

@[simp] theorem zextByte_toNat (b : Byte) : (zextByte b).toNat = b.toNat := by
  have := b.isLt
  simp only [zextByte, BitVec.toNat_setWidth]; omega

end Sys2Proof.Machine
end

