-- ==== Sys2Proof/Laws/Exec.lean ====
section
/-! SUPPORT. For each instruction that may fault, everything it can do, said once: its effect under its condition, or the
fault and its cause. Every other meaning is one equation by definition. -/

namespace Sys2Proof.Machine

/-! ### The two block accesses -/

/-- A block read from an address that `I` can hold: all of it, or a fault at 0x1000. -/
theorem State.readBytes_cases (s : State) (n : Nat) {a : Nat} (h : a ≤ 0x1000) :
    (a + n ≤ 0x1000 ∧ s.readBytes a n = .ok ((List.range n).map fun k => s.readMem (a + k))) ∨
      (0x1000 < a + n ∧ s.readBytes a n = .error ⟨.memRange, 0x1000⟩) := by
  by_cases hc : a + n ≤ 0x1000
  · exact .inl ⟨hc, s.readBytes_ok n hc⟩
  · exact .inr ⟨by omega, s.readBytes_error n h (by omega)⟩

/-- A block written from an address that `I` can hold: all of it, a fault in the font region, or a fault at 0x1000. -/
theorem State.storeBytes_cases (s : State) {bs : List Byte} (hb : bs ≠ []) {a : Nat} (h : a ≤ 0x1000) :
    (0x050 ≤ a ∧ a + bs.length ≤ 0x1000 ∧
        s.storeBytes a bs = .ok { s with mem := s.mem.writeBytes s.font a bs }) ∨
      (a ≤ 0x04F ∧ s.storeBytes a bs = .error ⟨.fontWrite, a⟩) ∨
      (0x050 ≤ a ∧ 0x1000 < a + bs.length ∧ s.storeBytes a bs = .error ⟨.memRange, 0x1000⟩) := by
  cases bs with
  | nil => exact absurd rfl hb
  | cons b bs =>
    by_cases h1 : a ≤ 0x04F
    · exact .inr (.inl ⟨h1, s.storeBytes_font b bs h1⟩)
    · by_cases h2 : a + (b :: bs).length ≤ 0x1000
      · exact .inl ⟨by omega, h2, s.storeBytes_ok _ (by omega) h2⟩
      · exact .inr (.inr ⟨by omega, by omega, s.storeBytes_range _ (by omega) h (by omega)⟩)

theorem State.dataAddr_zero_le (s : State) : s.dataAddr 0 ≤ 0x1000 := by
  have := s.dataAddr_lt 0; omega

/-! ### The stack instructions -/

theorem execRet_cases (s : State) :
    (∃ h : 0 < s.sp.val, execRet s =
        .next { s with pc := s.stack[s.sp.val - 1], sp := ⟨s.sp.val - 1, by omega⟩ }) ∨
      (s.sp.val = 0 ∧ execRet s = raiseFault .stackUnderflow .ret none s) := by
  by_cases h : 0 < s.sp.val
  · refine .inl ⟨h, ?_⟩
    rw [execRet, s.pop_ok h]; rfl
  · refine .inr ⟨by omega, ?_⟩
    rw [execRet, s.pop_empty (by omega)]

theorem execCall_cases (nnn : Addr) (s : State) :
    (∃ h : s.sp.val < 16, execCall nnn s =
        .next { s with
          pc := zextAddr nnn, stack := s.stack.set s.sp.val s.pc h, sp := ⟨s.sp.val + 1, by omega⟩ }) ∨
      (s.sp.val = 16 ∧ execCall nnn s = raiseFault .stackOverflow (.call nnn) none s) := by
  by_cases h : s.sp.val < 16
  · refine .inl ⟨h, ?_⟩
    rw [execCall, s.push_ok _ h]; rfl
  · have h16 : s.sp.val = 16 := by omega
    exact .inr ⟨h16, by rw [execCall, s.push_full _ h16]⟩

/-! ### The key skips -/

theorem execSkp_cases (x : Reg) (s : State) :
    (∃ k : Reg, (s.readV x).toNat = k.val ∧ execSkp x s = .next (s.skipIf (s.keyDown k))) ∨
      (0x0F < (s.readV x).toNat ∧ execSkp x s = raiseFault .keyRange (.skp x) (some (s.readV x).toNat) s) := by
  by_cases h : (s.readV x).toNat < 16
  · exact .inl ⟨⟨_, h⟩, rfl, by rw [execSkp, keyOf_some _ h]⟩
  · exact .inr ⟨by omega, by rw [execSkp, keyOf_none _ (by omega)]⟩

theorem execSknp_cases (x : Reg) (s : State) :
    (∃ k : Reg, (s.readV x).toNat = k.val ∧ execSknp x s = .next (s.skipIf (!s.keyDown k))) ∨
      (0x0F < (s.readV x).toNat ∧ execSknp x s = raiseFault .keyRange (.sknp x) (some (s.readV x).toNat) s) := by
  by_cases h : (s.readV x).toNat < 16
  · exact .inl ⟨⟨_, h⟩, rfl, by rw [execSknp, keyOf_some _ h]⟩
  · exact .inr ⟨by omega, by rw [execSknp, keyOf_none _ (by omega)]⟩

theorem execLdVxK_cases (x : Reg) (s : State) :
    (∃ k : Reg, s.lowestKey = some k ∧ execLdVxK x s = .next (s.writeV x (BitVec.ofNat 8 k.val))) ∨
      (s.lowestKey = none ∧ execLdVxK x s = .next s.rewind) := by
  cases h : s.lowestKey with
  | none => exact .inr ⟨rfl, by rw [execLdVxK, h]⟩
  | some k => exact .inl ⟨k, rfl, by rw [execLdVxK, h]⟩

/-! ### The block transfers -/

theorem execLdB_cases (x : Reg) (s : State) :
    (0x050 ≤ s.i.toNat ∧ s.i.toNat + 2 ≤ 0xFFF ∧ execLdB x s =
        .next { s with mem := s.mem.writeBytes s.font (s.dataAddr 0) (bcdDigits (s.readV x)) }) ∨
      (s.i.toNat ≤ 0x04F ∧ execLdB x s = raiseFault .fontWrite (.ldB x) (some s.i.toNat) s) ∨
      (0xFFF < s.i.toNat + 2 ∧ execLdB x s = raiseFault .memRange (.ldB x) (some 0x1000) s) := by
  have hl : (bcdDigits (s.readV x)).length = 3 := rfl
  have ha : s.dataAddr 0 = s.i.toNat := rfl
  rcases s.storeBytes_cases (bs := bcdDigits (s.readV x)) (by simp [bcdDigits]) s.dataAddr_zero_le with
    ⟨h1, h2, h⟩ | ⟨h1, h⟩ | ⟨h1, h2, h⟩
  · exact .inl ⟨by omega, by omega, by rw [execLdB, h, finish_ok]⟩
  · exact .inr (.inl ⟨by omega, by rw [execLdB, h, finish_error, ha]⟩)
  · exact .inr (.inr ⟨by omega, by rw [execLdB, h, finish_error]⟩)

theorem execStoreRegs_cases (x : Reg) (s : State) :
    (0x050 ≤ s.i.toNat ∧ s.i.toNat + x.val ≤ 0xFFF ∧ execStoreRegs x s =
        .next { s with mem := s.mem.writeBytes s.font (s.dataAddr 0) ((upTo x).map s.readV) }) ∨
      (s.i.toNat ≤ 0x04F ∧ execStoreRegs x s = raiseFault .fontWrite (.storeRegs x) (some s.i.toNat) s) ∨
      (0x050 ≤ s.i.toNat ∧ 0xFFF < s.i.toNat + x.val ∧
        execStoreRegs x s = raiseFault .memRange (.storeRegs x) (some 0x1000) s) := by
  have hl : ((upTo x).map s.readV).length = x.val + 1 := by rw [List.length_map, length_upTo]
  have ha : s.dataAddr 0 = s.i.toNat := rfl
  have hb : (upTo x).map s.readV ≠ [] := fun e => by rw [e] at hl; simp at hl
  rcases s.storeBytes_cases hb s.dataAddr_zero_le with ⟨h1, h2, h⟩ | ⟨h1, h⟩ | ⟨h1, h2, h⟩
  · exact .inl ⟨by omega, by omega, by rw [execStoreRegs, h, finish_ok]⟩
  · exact .inr (.inl ⟨by omega, by rw [execStoreRegs, h, finish_error, ha]⟩)
  · exact .inr (.inr ⟨by omega, by omega, by rw [execStoreRegs, h, finish_error]⟩)

theorem execLoadRegs_cases (x : Reg) (s : State) :
    (s.i.toNat + x.val ≤ 0xFFF ∧ execLoadRegs x s =
        .next (s.writeRegs (upTo x) ((List.range (x.val + 1)).map fun k => s.readMem (s.dataAddr k)))) ∨
      (0xFFF < s.i.toNat + x.val ∧ execLoadRegs x s = raiseFault .memRange (.loadRegs x) (some 0x1000) s) := by
  have ha : s.dataAddr 0 = s.i.toNat := rfl
  rcases s.readBytes_cases (x.val + 1) s.dataAddr_zero_le with ⟨h1, h⟩ | ⟨h1, h⟩
  · exact .inl ⟨by omega, by rw [execLoadRegs, h]; rfl⟩
  · exact .inr ⟨by omega, by rw [execLoadRegs, h]⟩

/-- The sprite that Dxyn reads. -/
def State.sprite (s : State) (n : Nat) : List Byte := (List.range n).map fun k => s.readMem (s.dataAddr k)

theorem execDrw_cases (x y : Reg) (n : Nat) (s : State) :
    (s.i.toNat + n ≤ 0x1000 ∧ execDrw x y n s =
        .next (State.setFlag { s with fb := (Draw.rows (s.readV x) (s.readV y) 0 (s.sprite n) ⟨s.fb, false⟩).fb }
          (collisionFlag (Draw.rows (s.readV x) (s.readV y) 0 (s.sprite n) ⟨s.fb, false⟩).collision))) ∨
      (0x1000 < s.i.toNat + n ∧ execDrw x y n s = raiseFault .memRange (.drw x y n) (some 0x1000) s) := by
  have ha : s.dataAddr 0 = s.i.toNat := rfl
  rcases s.readBytes_cases n s.dataAddr_zero_le with ⟨h1, h⟩ | ⟨h1, h⟩
  · exact .inl ⟨by omega, by rw [execDrw, h]; rfl⟩
  · exact .inr ⟨by omega, by rw [execDrw, h]⟩

end Sys2Proof.Machine
end

