-- ==== Sys2Proof/Laws/PerInstr.lean ====
section
/-! SUPPORT. Statements about every instruction as syntax, one lemma per constructor. -/

namespace Sys2Proof.Laws.RowTakesWord

/-- A row of the opcode table takes the instruction's word (R69) and builds the instruction back from it. -/
def Statement (i : Instr) : Prop :=
  i.wf = true → ∃ (k : Nat) (r : Row), opcodeTable[k]? = some r ∧ r.accepts (encode i) = true ∧ r.build (encode i) = i

theorem nop : Statement .nop := by
  intro _
  exact ⟨0, _, rfl, by decide, rfl⟩

theorem cls : Statement .cls := by
  intro _
  exact ⟨1, _, rfl, by decide, rfl⟩

theorem ret : Statement .ret := by
  intro _
  exact ⟨2, _, rfl, by decide, rfl⟩

theorem jp (nnn : Addr) : Statement (.jp nnn) := by
  intro _
  exact ⟨3, _, rfl, accepts_fmtNNN _ (by decide), by simp [encode]⟩

theorem call (nnn : Addr) : Statement (.call nnn) := by
  intro _
  exact ⟨4, _, rfl, accepts_fmtNNN _ (by decide), by simp [encode]⟩

theorem seImm (x : Reg) (nn : Byte) : Statement (.seImm x nn) := by
  intro _
  exact ⟨5, _, rfl, accepts_fmtXNN _ _ (by decide), by simp [encode]⟩

theorem sneImm (x : Reg) (nn : Byte) : Statement (.sneImm x nn) := by
  intro _
  exact ⟨6, _, rfl, accepts_fmtXNN _ _ (by decide), by simp [encode]⟩

theorem seReg (x : Reg) (y : Reg) : Statement (.seReg x y) := by
  intro _
  exact ⟨7, _, rfl, accepts_fmtXYN _ _ _ (by decide), by simp [encode]⟩

theorem ldImm (x : Reg) (nn : Byte) : Statement (.ldImm x nn) := by
  intro _
  exact ⟨8, _, rfl, accepts_fmtXNN _ _ (by decide), by simp [encode]⟩

theorem addImm (x : Reg) (nn : Byte) : Statement (.addImm x nn) := by
  intro _
  exact ⟨9, _, rfl, accepts_fmtXNN _ _ (by decide), by simp [encode]⟩

theorem ldReg (x : Reg) (y : Reg) : Statement (.ldReg x y) := by
  intro _
  exact ⟨10, _, rfl, accepts_fmtXY _ _ (by decide), by simp [encode]⟩

theorem orReg (x : Reg) (y : Reg) : Statement (.orReg x y) := by
  intro _
  exact ⟨11, _, rfl, accepts_fmtXY _ _ (by decide), by simp [encode]⟩

theorem andReg (x : Reg) (y : Reg) : Statement (.andReg x y) := by
  intro _
  exact ⟨12, _, rfl, accepts_fmtXY _ _ (by decide), by simp [encode]⟩

theorem xorReg (x : Reg) (y : Reg) : Statement (.xorReg x y) := by
  intro _
  exact ⟨13, _, rfl, accepts_fmtXY _ _ (by decide), by simp [encode]⟩

theorem addReg (x : Reg) (y : Reg) : Statement (.addReg x y) := by
  intro _
  exact ⟨14, _, rfl, accepts_fmtXY _ _ (by decide), by simp [encode]⟩

theorem subReg (x : Reg) (y : Reg) : Statement (.subReg x y) := by
  intro _
  exact ⟨15, _, rfl, accepts_fmtXY _ _ (by decide), by simp [encode]⟩

theorem shr (x : Reg) (y : Reg) : Statement (.shr x y) := by
  intro _
  exact ⟨16, _, rfl, accepts_fmtXY _ _ (by decide), by simp [encode]⟩

theorem subnReg (x : Reg) (y : Reg) : Statement (.subnReg x y) := by
  intro _
  exact ⟨17, _, rfl, accepts_fmtXY _ _ (by decide), by simp [encode]⟩

theorem shl (x : Reg) (y : Reg) : Statement (.shl x y) := by
  intro _
  exact ⟨18, _, rfl, accepts_fmtXY _ _ (by decide), by simp [encode]⟩

theorem sneReg (x : Reg) (y : Reg) : Statement (.sneReg x y) := by
  intro _
  exact ⟨19, _, rfl, accepts_fmtXYN _ _ _ (by decide), by simp [encode]⟩

theorem ldI (nnn : Addr) : Statement (.ldI nnn) := by
  intro _
  exact ⟨20, _, rfl, accepts_fmtNNN _ (by decide), by simp [encode]⟩

theorem jpV0 (nnn : Addr) : Statement (.jpV0 nnn) := by
  intro _
  exact ⟨21, _, rfl, accepts_fmtNNN _ (by decide), by simp [encode]⟩

theorem rnd (x : Reg) (nn : Byte) : Statement (.rnd x nn) := by
  intro _
  exact ⟨22, _, rfl, accepts_fmtXNN _ _ (by decide), by simp [encode]⟩

theorem drw (x : Reg) (y : Reg) (n : Nat) : Statement (.drw x y n) := by
  intro h
  replace h : n < 16 := by simpa [Instr.wf] using h
  exact ⟨23, _, rfl, accepts_fmtXYN _ _ _ (by decide), by simp [encode, Nat.mod_eq_of_lt h]⟩

theorem skp (x : Reg) : Statement (.skp x) := by
  intro _
  exact ⟨24, _, rfl, accepts_fmtX _ (by decide), by simp [encode]⟩

theorem sknp (x : Reg) : Statement (.sknp x) := by
  intro _
  exact ⟨25, _, rfl, accepts_fmtX _ (by decide), by simp [encode]⟩

theorem ldVxDt (x : Reg) : Statement (.ldVxDt x) := by
  intro _
  exact ⟨26, _, rfl, accepts_fmtX _ (by decide), by simp [encode]⟩

theorem ldVxK (x : Reg) : Statement (.ldVxK x) := by
  intro _
  exact ⟨27, _, rfl, accepts_fmtX _ (by decide), by simp [encode]⟩

theorem ldDtVx (x : Reg) : Statement (.ldDtVx x) := by
  intro _
  exact ⟨28, _, rfl, accepts_fmtX _ (by decide), by simp [encode]⟩

theorem ldStVx (x : Reg) : Statement (.ldStVx x) := by
  intro _
  exact ⟨29, _, rfl, accepts_fmtX _ (by decide), by simp [encode]⟩

theorem addI (x : Reg) : Statement (.addI x) := by
  intro _
  exact ⟨30, _, rfl, accepts_fmtX _ (by decide), by simp [encode]⟩

theorem ldF (x : Reg) : Statement (.ldF x) := by
  intro _
  exact ⟨31, _, rfl, accepts_fmtX _ (by decide), by simp [encode]⟩

theorem ldB (x : Reg) : Statement (.ldB x) := by
  intro _
  exact ⟨32, _, rfl, accepts_fmtX _ (by decide), by simp [encode]⟩

theorem storeRegs (x : Reg) : Statement (.storeRegs x) := by
  intro _
  exact ⟨33, _, rfl, accepts_fmtX _ (by decide), by simp [encode]⟩

theorem loadRegs (x : Reg) : Statement (.loadRegs x) := by
  intro _
  exact ⟨34, _, rfl, accepts_fmtX _ (by decide), by simp [encode]⟩

end Sys2Proof.Laws.RowTakesWord
end

