-- ==== Sys2Proof/Laws/Step.lean ====
section
/-! SUPPORT. Everything one step can do, said once. -/

namespace Sys2Proof.Machine

/-- With nothing scheduled, a step is `ExecuteStep`. -/
theorem step_unscheduled {s : State} (h : s.schedule = []) : step s = executeStep s := by
  rw [step, nextOp, h]

/-- With an operation scheduled, a step is that operation, taken off the schedule. -/
theorem step_scheduled {s : State} {op : HostOp} {rest : List HostOp} (h : s.schedule = op :: rest) :
    step s = performOp op { s with schedule := rest } := by
  rw [step, nextOp, h]

theorem executeStep_halted {s : State} (h : s.fault ≠ none) : executeStep s = .refused .halted := by
  unfold executeStep
  cases e : s.fault with
  | none => exact absurd e h
  | some r => rfl

/-- A running core whose PC is past the last word faults at the fetch. -/
theorem executeStep_unfetched {s : State} (h : s.fault = none) (hf : s.fetch = none) :
    executeStep s = .next { s with fault := some ⟨.fetchRange, some s.pc, none, some s.pc.toNat⟩ } := by
  simp only [executeStep, h, hf]; rfl

/-- A running core that fetches no instruction faults at the decode. -/
theorem executeStep_illegal {s : State} {op : Word} {e : DecodeError} (h : s.fault = none) (hf : s.fetch = some op)
    (hd : decodeWord op = .error e) :
    executeStep s = .next { s with fault := some ⟨.illegalOpcode, some s.pc, some op, none⟩ } := by
  simp only [executeStep, h, hf, hd]; rfl

/-- A running core that fetches an instruction performs its rule, with PC pre-advanced. -/
theorem executeStep_decoded {s : State} {op : Word} {i : Instr} (h : s.fault = none) (hf : s.fetch = some op)
    (hd : decodeWord op = .ok i) : executeStep s = exec i s.advance := by
  simp only [executeStep, h, hf, hd]

/-- The only rejection of a word is by its own name. -/
theorem decodeWord_error {op : Word} {e : DecodeError} (h : decodeWord op = .error e) : e = .illegalOpcode op := by
  unfold decodeWord at h
  split at h <;> cases h
  rfl

/-- Everything a running core's `ExecuteStep` can do: fault at the fetch, fault at the decode, or perform a rule. -/
theorem executeStep_cases {s t : State} (h : s.fault = none) (ht : executeStep s = .next t) :
    (s.fetch = none ∧ t = { s with fault := some ⟨.fetchRange, some s.pc, none, some s.pc.toNat⟩ }) ∨
      (∃ op, s.fetch = some op ∧ decodeWord op = .error (.illegalOpcode op) ∧
        t = { s with fault := some ⟨.illegalOpcode, some s.pc, some op, none⟩ }) ∨
      ∃ op i, s.fetch = some op ∧ decodeWord op = .ok i ∧ exec i s.advance = .next t := by
  cases hf : s.fetch with
  | none =>
    rw [executeStep_unfetched h hf] at ht
    cases ht
    exact .inl ⟨rfl, rfl⟩
  | some op =>
    cases hd : decodeWord op with
    | error e =>
      rw [executeStep_illegal h hf hd] at ht
      cases ht
      exact .inr (.inl ⟨op, rfl, by rw [hd, decodeWord_error hd], rfl⟩)
    | ok i => exact .inr (.inr ⟨op, i, rfl, hd, by rw [← executeStep_decoded h hf hd]; exact ht⟩)

theorem performOp_executeStep (s : State) : performOp .executeStep s = executeStep s := by
  unfold performOp hostOp
  cases executeStep s <;> rfl

/-- What each other operation does to a running core. -/
theorem performOp_running {s : State} (h : s.fault = none) :
    performOp .timerTick s = .next s.timerTick ∧
      (∀ k, performOp (.setKeys k) s = .next (s.setKeys k)) ∧
      ∀ bytes, performOp (.loadProgram bytes) s = .next (s.loadProgram bytes) := by
  simp [performOp, hostOp, State.unlessHalted, h]

theorem performOp_read (s : State) :
    performOp .readFramebuffer s = .next s ∧ performOp .readKeys s = .next s ∧
      performOp .readFault s = .next s := ⟨rfl, rfl, rfl⟩

/-! ### A placed word is what the next step fetches -/

theorem State.poke_pc (s : State) (a : Nat) (b : Byte) : (s.poke a b).pc = s.pc := by
  unfold State.poke; split <;> [rfl; (split <;> rfl)]

theorem State.readMem_poke (s : State) {a j : Nat} (b : Byte) (hm : s.mem.wf s.font = true) (ha : a < Config.memSize) :
    (s.poke a b).readMem j = if j = a then b else s.readMem j := by
  unfold State.poke
  split
  · rename_i h
    by_cases hj : j < Config.fontSize
    · have hn : s.mem.find j = none := Memory.find_below hm hj
      simp only [State.readMem, Memory.read, hn, Option.getD_none, unlisted, dif_pos hj, Vector.getElem_set]
      by_cases e : a = j
      · simp [e]
      · simp [e, Ne.symm e]
    · have : j ≠ a := by omega
      simp only [State.readMem, Memory.read, unlisted, dif_neg hj, if_neg this]
  · exact Memory.read_write s.font s.mem a j b

theorem State.wf_poke (s : State) {a : Nat} (b : Byte) (hm : s.mem.wf s.font = true) :
    (s.poke a b).mem.wf (s.poke a b).font = true := by
  unfold State.poke
  split
  · exact (Memory.wfAbove_font _ _ _ (Nat.le_refl _)).trans hm
  · split
    · exact Memory.wf_write b hm (by omega) ‹_›
    · exact hm

/-- In a state with canonical memory and PC at a place that holds a word, the very next step runs the placed word. -/
theorem step_placeWord {s : State} {w : Word} {i : Instr} (hm : s.mem.wf s.font = true) (hp : s.pc.toNat ≤ 0xFFE)
    (hd : decodeWord w = .ok i) : step (s.placeWord w) = exec i (s.placeWord w).advance := by
  have hpc : (s.placeWord w).pc = s.pc := by
    show ((s.poke s.pc.toNat w.hiByte).poke (s.pc.toNat + 1) w.loByte).pc = s.pc
    rw [State.poke_pc, State.poke_pc]
  have hr : ∀ j, (s.placeWord w).readMem j =
      if j = s.pc.toNat + 1 then w.loByte else if j = s.pc.toNat then w.hiByte else s.readMem j := by
    intro j
    show ((s.poke s.pc.toNat w.hiByte).poke (s.pc.toNat + 1) w.loByte).readMem j = _
    rw [State.readMem_poke _ _ (State.wf_poke s _ hm) (by simp; omega), State.readMem_poke s _ hm (by simp; omega)]
  have hf : (s.placeWord w).fetch = some w := by
    rw [State.fetch_ok _ (by rw [hpc]; exact hp), hpc, hr, hr, if_neg (by omega), if_pos rfl, if_pos rfl]
    congr 1
    apply BitVec.eq_of_toNat_eq
    rw [Word.toNat_ofBytes]
    simp only [Word.hiByte, Word.loByte, BitVec.extractLsb'_toNat, Nat.shiftRight_eq_div_pow]
    omega
  rw [step_unscheduled rfl, executeStep_decoded rfl hf hd]

end Sys2Proof.Machine
end

