-- ==== Sys2Proof/Tests/Slice0.lean ====
section
/-! SUPPORT. The model's own tests. Expected results are the spec's: the vectors W<n> and V<n> of 95_test_vectors.md, or
the encodings of R66 and R70 written out. After them, a witness for the hypotheses of every statement that has some. -/

namespace Sys2Proof.Tests

open Sys2Proof.Machine

/-- The outcome is a next state with a property. -/
def nextThen (o : Host.Outcome State Fault Refusal) (p : State → Bool) : Bool :=
  match o with
  | .next t => p t
  | .fault _ => false
  | .refused _ => false

/-- The reset state with these registers written. -/
def regs (vs : List (Reg × Byte)) : State := vs.foldl (fun s p => s.writeV p.1 p.2) State.reset

/-- A keypad latch with these keys held. -/
def held (ks : List Reg) : Keys := ks.foldl (fun k i => k.set i.val true i.isLt) (Vector.replicate 16 false)

/-- One step on a word placed at PC gives a state with a property. -/
def stepOn (s : State) (w : Nat) (p : State → Bool) : Bool := nextThen (step (s.withFetchWord 16 w)) p

/-- One step on a word placed at PC raises a fault with this record, and changes nothing else. -/
def faultsOn (s : State) (w : Nat) (r : FaultRecord) : Bool :=
  stepOn s w fun t => t == { s.withFetchWord 16 w with fault := some r }

/-- The words of a family decode to these instructions, in the host's bit numbering too. -/
def decodeAll (l : List (Nat × Instr)) : Bool := l.all fun p => decodeTableWord 16 p.1 == some p.2

/-! ### WellFormed -/

theorem test_ill_formed_count_is_refused : (Instr.drw 0 0 16).wf = false ∧ (Instr.drw 0 0 15).wf = true := by decide

/-! ### Decoding: a written-out word for every constructor -/

theorem test_decode_control : decodeAll [(0x0000, .nop), (0x00EE, .ret), (0x1234, .jp 0x234), (0x2A0F, .call 0xA0F),
    (0x3342, .seImm 3 0x42), (0x4F01, .sneImm 15 0x01), (0x5123, .seReg 1 2), (0x9AB0, .sneReg 10 11),
    (0xB300, .jpV0 0x300)] = true := by decide

theorem test_decode_arithmetic : decodeAll [(0x6A7B, .ldImm 10 0x7B), (0x7302, .addImm 3 0x02), (0x8120, .ldReg 1 2),
    (0x8121, .orReg 1 2), (0x8122, .andReg 1 2), (0x8123, .xorReg 1 2), (0x8124, .addReg 1 2), (0x8125, .subReg 1 2),
    (0x8126, .shr 1 2), (0x8127, .subnReg 1 2), (0x812E, .shl 1 2), (0xC30F, .rnd 3 0x0F)] = true := by decide

theorem test_decode_index_memory : decodeAll [(0xA300, .ldI 0x300), (0xF21E, .addI 2), (0xF029, .ldF 0),
    (0xFA33, .ldB 10), (0xF255, .storeRegs 2), (0xF265, .loadRegs 2)] = true := by decide

theorem test_decode_display : decodeAll [(0x00E0, .cls), (0xD125, .drw 1 2 5), (0xDFE0, .drw 15 14 0)] = true := by
  decide

theorem test_decode_keypad_timers : decodeAll [(0xE59E, .skp 5), (0xE5A1, .sknp 5), (0xF307, .ldVxDt 3),
    (0xF30A, .ldVxK 3), (0xF015, .ldDtVx 0), (0xF018, .ldStVx 0)] = true := by decide

/-- V90 to V94, and words just beside a row. -/
theorem test_illegal_words : [0x0123, 0x00FF, 0x8008, 0xE000, 0xF000, 0x0001, 0x00EF, 0x812F, 0xE19F, 0xF165 + 1].all
    (fun w => decodeTableWord 16 w == none) = true := by decide

/-- The high half of a word is its first byte (R54). -/
theorem test_decode_is_big_endian : decodeBytes [0x12, 0x34, 0xFF] = .ok (.jp 0x234, [0xFF]) ∧
    decodeBytes [0x12] = .error .truncated := by decide

/-- An assembler writes the ignored nibble as 0 (R75). -/
theorem test_encode : encode (.seReg 1 2) = 0x5120 ∧ encode (.shl 0 1) = 0x801E ∧ encode (.drw 1 2 5) = 0xD125 := by
  decide

/-! ### Control flow -/

/-- V1. -/
theorem test_nop : stepOn State.reset 0x0000 (fun t => t == { State.reset with pc := 0x202 }) = true := by decide

/-- V2, V3. -/
theorem test_jp : (stepOn State.reset 0x1234 (fun t => t.pc == 0x234) &&
    stepOn State.reset 0x1200 fun t => t == State.reset.withFetchWord 16 0x1200) = true := by decide

/-- V7. -/
theorem test_ret : stepOn { State.reset with pc := 0x212, sp := 1, stack := State.reset.stack.set 0 0x0206 } 0x00EE
    (fun t => t.pc == 0x206 && t.sp == 0 && t.stack.get 0 == 0x0206) = true := by decide

/-- V6. -/
theorem test_ret_underflow : faultsOn State.reset 0x00EE ⟨.stackUnderflow, some 0x200, some 0x00EE, none⟩ = true := by
  decide

/-- V4. -/
theorem test_call : stepOn { State.reset with sp := 15 } 0x2300
    (fun t => t.pc == 0x300 && t.sp == 16 && t.stack.get 15 == 0x0202) = true := by decide

/-- V5. -/
theorem test_call_overflow : faultsOn { State.reset with sp := 16 } 0x2300
    ⟨.stackOverflow, some 0x200, some 0x2300, none⟩ = true := by decide

/-- V8, V9. -/
theorem test_se_imm : (stepOn (regs [(3, 0x42)]) 0x3342 (fun t => t.pc == 0x204) &&
    stepOn (regs [(3, 0x41)]) 0x3342 fun t => t.pc == 0x202) = true := by decide

/-- V14. -/
theorem test_se_imm_at_the_end : stepOn { State.reset with pc := 0xFFE } 0x3000 (fun t => t.pc == 0x1002) = true := by
  decide

/-- V10 and R85's example. -/
theorem test_sne_imm : (stepOn (regs [(3, 0x41)]) 0x4342 (fun t => t.pc == 0x204) &&
    stepOn (regs [(3, 0x42)]) 0x4342 fun t => t.pc == 0x202) = true := by decide

/-- V11, V13. -/
theorem test_se_reg : (stepOn (regs [(0, 4), (1, 4)]) 0x5011 (fun t => t.pc == 0x204) &&
    stepOn State.reset 0x5000 fun t => t.pc == 0x204) = true := by decide

/-- V12 and R87's example. -/
theorem test_sne_reg : (stepOn (regs [(0, 4), (1, 4)]) 0x9011 (fun t => t.pc == 0x202) &&
    stepOn (regs [(1, 7), (2, 8)]) 0x9120 fun t => t.pc == 0x204) = true := by decide

/-- V15, V16. -/
theorem test_jp_v0 : (stepOn (regs [(0, 0x10)]) 0xB300 (fun t => t.pc == 0x310) &&
    stepOn (regs [(0, 0xFF)]) 0xBFFF fun t => t.pc == 0x10FE) = true := by decide

/-! ### Arithmetic and logic -/

/-- W1. -/
theorem test_ld_imm : stepOn State.reset 0x6A7B (fun t => t.readV 10 == 0x7B && t.pc == 0x202) = true := by decide

/-- W2. -/
theorem test_add_imm : (stepOn (regs [(3, 0xFF), (15, 7)]) 0x7302 (fun t => t.readV 3 == 1 && t.readV 15 == 7) &&
    stepOn (regs [(15, 0xFF)]) 0x7F02 fun t => t.readV 15 == 1) = true := by decide

/-- V20. -/
theorem test_ld_reg : stepOn (regs [(1, 0x99)]) 0x8010 (fun t => t.readV 0 == 0x99) = true := by decide

/-- V21. -/
theorem test_or : stepOn (regs [(0, 0xF0), (1, 0x0F), (15, 0x55)]) 0x8011
    (fun t => t.readV 0 == 0xFF && t.readV 15 == 0x55) = true := by decide

/-- V22. -/
theorem test_and : stepOn (regs [(0, 0xF0), (1, 0x3C)]) 0x8012 (fun t => t.readV 0 == 0x30) = true := by decide

/-- V23. -/
theorem test_xor : stepOn (regs [(0, 0xF0), (1, 0x3C)]) 0x8013 (fun t => t.readV 0 == 0xCC) = true := by decide

/-- W3. -/
theorem test_add_reg : (stepOn (regs [(0, 0xFF), (1, 1)]) 0x8014 (fun t => t.readV 0 == 0 && t.readV 15 == 1) &&
    stepOn (regs [(0, 1), (1, 1)]) 0x8014 fun t => t.readV 0 == 2 && t.readV 15 == 0) = true := by decide

/-- V29. -/
theorem test_add_reg_into_vf : stepOn (regs [(15, 0xFF), (0, 1)]) 0x8F04 (fun t => t.readV 15 == 1) = true := by decide

/-- W4. -/
theorem test_sub : (stepOn (regs [(0, 1), (1, 2)]) 0x8015 (fun t => t.readV 0 == 0xFF && t.readV 15 == 0) &&
    stepOn (regs [(0, 2), (1, 1)]) 0x8015 fun t => t.readV 0 == 1 && t.readV 15 == 1) = true := by decide

/-- V24, V30. -/
theorem test_sub_corners : (stepOn (regs [(0, 5), (1, 5)]) 0x8015 (fun t => t.readV 0 == 0 && t.readV 15 == 1) &&
    stepOn (regs [(15, 3), (1, 5)]) 0x8F15 fun t => t.readV 15 == 0) = true := by decide

/-- V27 with a nonzero Vy, which is not read. -/
theorem test_shr : stepOn (regs [(0, 5), (1, 0xFE)]) 0x8016 (fun t => t.readV 0 == 2 && t.readV 15 == 1) = true := by
  decide

/-- V31. -/
theorem test_shr_vf : stepOn (regs [(15, 3)]) 0x8FF6 (fun t => t.readV 15 == 0) = true := by decide

/-- V25, V26. -/
theorem test_subn : (stepOn (regs [(0, 2), (1, 1)]) 0x8017 (fun t => t.readV 0 == 0xFF && t.readV 15 == 0) &&
    stepOn (regs [(0, 1), (1, 2)]) 0x8017 fun t => t.readV 0 == 1 && t.readV 15 == 1) = true := by decide

/-- V28. -/
theorem test_shl : stepOn (regs [(0, 0x81)]) 0x801E (fun t => t.readV 0 == 2 && t.readV 15 == 1) = true := by decide

/-- V32, V33. -/
theorem test_shl_vf : (stepOn (regs [(15, 0x81)]) 0x8FFE (fun t => t.readV 15 == 2) &&
    stepOn (regs [(15, 0x7F)]) 0x8FFE fun t => t.readV 15 == 0) = true := by decide

/-- V36 with any draw: bits that are clear in nn are clear in the result. -/
theorem test_rnd_masks : ∃ t, exec (.rnd 0 0x00) State.reset = .next t ∧ t.readV 0 = 0x00 :=
  ⟨_, rfl, show Config.rand8 0 &&& 0 = 0 from BitVec.and_zero⟩

/-- V35: with the draw 0xAB. -/
theorem test_rnd_draw (h : Config.rand8 0 = 0xAB) :
    ∃ t, exec (.rnd 0 0x0F) State.reset = .next t ∧ t.readV 0 = 0x0B ∧ t.draws = 1 := by
  refine ⟨_, rfl, ?_, rfl⟩
  show Config.rand8 0 &&& 0x0F = 0x0B
  rw [h]; decide

/-! ### Address register, BCD and block transfers -/

/-- V40. -/
theorem test_ld_i : stepOn State.reset 0xA300 (fun t => t.i == 0x300) = true := by decide

/-- V41. -/
theorem test_add_i : stepOn { regs [(0, 2), (15, 9)] with i := 0xFFF } 0xF01E
    (fun t => t.i == 0x001 && t.readV 15 == 9) = true := by decide

/-- V42, V43. -/
theorem test_ld_f : (stepOn (regs [(0, 0x0A)]) 0xF029 (fun t => t.i == 0x032) &&
    stepOn (regs [(0, 0x10)]) 0xF029 fun t => t.i == 0x050) = true := by decide

/-- V45. -/
theorem test_ld_b : stepOn { regs [(0, 0xFF)] with i := 0xFFD } 0xF033
    (fun t => t.readMem 0xFFD == 2 && t.readMem 0xFFE == 5 && t.readMem 0xFFF == 5 && t.i == 0xFFD) = true := by decide

/-- V49, V50. -/
theorem test_ld_b_faults :
    (faultsOn { regs [(0, 1)] with i := 0xFFE } 0xF033 ⟨.memRange, some 0x200, some 0xF033, some 0x1000⟩ &&
      faultsOn { State.reset with i := 0x04E } 0xF033 ⟨.fontWrite, some 0x200, some 0xF033, some 0x04E⟩) = true := by
  decide

/-- V52. -/
theorem test_store_regs : stepOn { regs [(0, 0x11), (1, 0x22), (2, 0x33), (3, 0x44)] with i := 0x300 } 0xF255
    (fun t => t.readMem 0x300 == 0x11 && t.readMem 0x301 == 0x22 && t.readMem 0x302 == 0x33 &&
      t.readMem 0x303 == 0 && t.i == 0x300) = true := by decide

/-- V54, V51. -/
theorem test_store_regs_faults :
    (faultsOn { State.reset with i := 0xFF1 } 0xFF55 ⟨.memRange, some 0x200, some 0xFF55, some 0x1000⟩ &&
      faultsOn { State.reset with i := 0x040 } 0xF155 ⟨.fontWrite, some 0x200, some 0xF155, some 0x040⟩) = true := by
  decide

/-- R110's example. -/
theorem test_load_regs : stepOn { regs [(3, 9)] with i := 0x300, mem := [(0x300, 1), (0x301, 2), (0x302, 3)] } 0xF265
    (fun t => t.readV 0 == 1 && t.readV 1 == 2 && t.readV 2 == 3 && t.readV 3 == 9 && t.i == 0x300) = true := by decide

/-- V56. -/
theorem test_load_regs_fault : faultsOn { State.reset with i := 0xFF1 } 0xFF65
    ⟨.memRange, some 0x200, some 0xFF65, some 0x1000⟩ = true := by decide

/-! ### Display -/

/-- V60. -/
theorem test_cls : stepOn { regs [(15, 7)] with fb := State.reset.fb.flip 3 4 } 0x00E0
    (fun t => t.fb == State.reset.fb && t.readV 15 == 7) = true := by decide

/-- W6. -/
theorem test_drw_wraps : stepOn { regs [(0, 63)] with i := 0x300, mem := [(0x300, 0xFF)] } 0xD011
    (fun t => t.fb.cell 63 0 && t.fb.cell 0 0 && t.fb.cell 6 0 && !t.fb.cell 7 0 && !t.fb.cell 63 1 &&
      t.readV 15 == 0) = true := by decide

/-- W5's counter-instance, first draw; V64. -/
theorem test_drw_collides :
    (stepOn { regs [(0, 10), (1, 5)] with i := 0x300, mem := [(0x300, 0x80)], fb := State.reset.fb.flip 10 5 } 0xD011
      (fun t => t.fb == State.reset.fb && t.readV 15 == 1) &&
    stepOn { regs [(15, 0x3C)] with i := 0x300, mem := [(0x300, 0x80)] } 0xDFF1
      fun t => t.fb.cell 60 28 && t.readV 15 == 0) = true := by decide

/-! ### Keypad and timers -/

/-- V70, V71. -/
theorem test_skp : (stepOn { regs [(5, 10)] with keys := held [10] } 0xE59E (fun t => t.pc == 0x204) &&
    stepOn (regs [(5, 10)]) 0xE59E fun t => t.pc == 0x202) = true := by decide

/-- V74, and R116's fault. -/
theorem test_key_faults : (faultsOn (regs [(0, 0x10)]) 0xE09E ⟨.keyRange, some 0x200, some 0xE09E, some 0x10⟩ &&
    faultsOn (regs [(0, 0x10)]) 0xE0A1 ⟨.keyRange, some 0x200, some 0xE0A1, some 0x10⟩) = true := by decide

/-- V72, V73. -/
theorem test_sknp : (stepOn { regs [(0, 3)] with keys := held [3] } 0xE0A1 (fun t => t.pc == 0x202) &&
    stepOn (regs [(0, 3)]) 0xE0A1 fun t => t.pc == 0x204) = true := by decide

/-- V77. -/
theorem test_ld_vx_dt : stepOn { State.reset with dt := 0x3C } 0xF307 (fun t => t.readV 3 == 0x3C) = true := by decide

/-- V75. -/
theorem test_ld_vx_k : stepOn { State.reset with keys := held [9, 5] } 0xF00A
    (fun t => t.readV 0 == 5 && t.pc == 0x202) = true := by decide

/-- V76. -/
theorem test_ld_vx_k_waits : stepOn State.reset 0xF00A (fun t => t == State.reset.withFetchWord 16 0xF00A) = true := by
  decide

/-- V78, its step. -/
theorem test_ld_dt_vx : stepOn (regs [(0, 3)]) 0xF015 (fun t => t.dt == 3 && t.st == 0) = true := by decide

/-- V79, its step. -/
theorem test_ld_st_vx : stepOn (regs [(0, 3)]) 0xF018 (fun t => t.st == 3 && t.dt == 0) = true := by decide

/-! ### Fetch and host operations -/

/-- V95, V96. -/
theorem test_fetch_range :
    (nextThen (step { State.reset with pc := 0xFFF })
      (fun t => t.fault == some ⟨.fetchRange, some 0xFFF, none, some 0xFFF⟩ && t.pc == 0xFFF) &&
    nextThen (step { State.reset with pc := 0x1000 })
      fun t => t.fault == some ⟨.fetchRange, some 0x1000, none, some 0x1000⟩) = true := by decide

/-- V90. -/
theorem test_illegal_faults : faultsOn State.reset 0x0123 ⟨.illegalOpcode, some 0x200, some 0x0123, none⟩ = true := by
  decide

/-- V97. -/
theorem test_odd_fetch : stepOn { State.reset with pc := 0x201 } 0x6012
    (fun t => t.readV 0 == 0x12 && t.pc == 0x203) = true := by decide

/-- The very next step runs a word placed in the font region too, where PC may stand (R82). -/
theorem test_fetch_word_in_font : stepOn { State.reset with pc := 0x04F } 0x6012
    (fun t => t.readV 0 == 0x12 && t.pc == 0x051) = true := by decide

/-- The table's bits above the row's are zero, and a fault recorded before does not stop the placed word. -/
theorem test_fetch_word_clears_the_way :
    (stepOn { State.reset with fault := some ⟨.keyRange, none, none, none⟩, schedule := [.timerTick] } 0x16012
      fun t => t.readV 0 == 0x12) = true := by decide

/-- V81, and W8's first tick. -/
theorem test_tick :
    (nextThen (step { State.reset with dt := 5, st := 7, schedule := [.timerTick] }) (fun t => t.dt == 4 && t.st == 6) &&
      !{ State.reset with st := 7 }.beep && { State.reset with st := 1 }.beep &&
      { State.reset with st := 1 }.timerTick.st == 0) = true := by decide

/-- V99. -/
theorem test_load_program_too_large : State.reset.loadProgram (List.replicate 3585 1) =
    { State.reset with fault := some ⟨.programTooLarge, none, none, some 3585⟩ } := by
  rw [State.loadProgram, List.length_replicate]; rfl

/-- R148, with Program 1's first two words. -/
theorem test_load_program : nextThen (performOp (.loadProgram [0x60, 0x00, 0x61, 0x05]) State.reset)
    (fun t => t.mem == [(0x200, 0x60), (0x202, 0x61), (0x203, 0x05)] && t.pc == 0x200) = true := by decide

/-- R42, R48: the default font's glyph A, and zeros from 0x050 on. -/
theorem test_reset_memory : (State.reset.readMem 0x000 == 0xF0 && State.reset.readMem 0x034 == 0xF0 &&
    State.reset.readMem 0x036 == 0x90 && State.reset.readMem 0x04F == 0x80 && State.reset.readMem 0x050 == 0 &&
    State.reset.readMem 0x200 == 0) = true := by decide

/-! ### Witnesses: concrete states and operands that meet the hypotheses of the statements -/

theorem next_of_nextThen {o : Host.Outcome State Fault Refusal} {p : State → Bool} (h : nextThen o p = true) :
    ∃ t, o = .next t ∧ p t = true := by
  cases o with
  | next t => exact ⟨t, rfl, h⟩
  | fault _ => cases h
  | refused _ => cases h

/-- A step of a running core with nothing scheduled raises this fault. -/
def StepFaults (s : State) (c : Fault) : Prop :=
  ∃ t r, s.fault = none ∧ s.schedule = [] ∧ step s = .next t ∧ t.fault = some r ∧ r.code = c

theorem stepFaults_of {s : State} {r : FaultRecord}
    (h : (s.fault == none && (s.schedule == [] && nextThen (step s) fun t => t.fault == some r)) = true) :
    StepFaults s r.code := by
  simp only [Bool.and_eq_true, beq_iff_eq] at h
  obtain ⟨h1, h2, h3⟩ := h
  obtain ⟨t, h4, h5⟩ := next_of_nextThen h3
  exact ⟨t, r, h1, h2, h4, by simpa using h5, rfl⟩

theorem witness_DecodeOfEncodeIsTheInstruction : (Instr.drw 1 2 15).wf = true ∧ (Instr.drw 1 2 0).wf = true := by decide

theorem witness_EncodeOfDecodeIsTheWord :
    decodeWord 0x512F = .ok (.seReg 1 2) ∧ decodeWord 0x9120 = .ok (.sneReg 1 2) ∧ decodeWord 0x812E = .ok (.shl 1 2) := by
  decide

theorem witness_OpcodeRowsAreDisjoint : ∃ r ∈ opcodeTable, opcodeTable[34]? = some r ∧ r.accepts 0xFF65 = true :=
  ⟨⟨0xF065, 0xF0FF, fun op => .loadRegs op.x⟩, by simp [opcodeTable, tableMisc], rfl, by decide⟩

/-- A PC at the last word, and just past it. -/
theorem witness_FetchReadsTwoBytesBigEndian :
    { State.reset with pc := 0xFFE }.pc.toNat ≤ 0xFFE ∧ 0xFFE < { State.reset with pc := 0xFFF }.pc.toNat := by decide

/-- A halted state, a word that decodes, one that does not, and none. -/
theorem witness_StepRunsTheDecodedInstruction :
    State.reset.schedule = [] ∧ State.reset.fault = none ∧
    { State.reset with fault := some ⟨.keyRange, none, none, none⟩ }.fault ≠ none ∧
    (State.reset.withFetchWord 16 0x6012).fetch = some 0x6012 ∧ decodeWord 0x6012 = .ok (.ldImm 0 0x12) ∧
    (State.reset.withFetchWord 16 0x0123).fetch = some 0x0123 ∧ decodeWord 0x0123 = .error (.illegalOpcode 0x0123) ∧
    { State.reset with pc := 0xFFF }.fetch = none := by decide

theorem witness_StepPerformsTheNextScheduledOperation :
    { State.reset with schedule := [.timerTick] }.schedule = [.timerTick] ∧
    (∃ t r, hostOp .timerTick { State.reset with schedule := [] } = .next (t, r)) ∧
    hostOp .timerTick { State.reset with fault := some ⟨.keyRange, none, none, none⟩, schedule := [] } =
      .refused .halted := ⟨rfl, ⟨_, _, rfl⟩, rfl⟩

theorem witness_fetchRange : StepFaults { State.reset with pc := 0xFFF } .fetchRange :=
  stepFaults_of (r := ⟨.fetchRange, some 0xFFF, none, some 0xFFF⟩) (by decide)

theorem witness_illegalOpcode : StepFaults (State.reset.withFetchWord 16 0x0123) .illegalOpcode :=
  stepFaults_of (r := ⟨.illegalOpcode, some 0x200, some 0x0123, none⟩) (by decide)

theorem witness_stackOverflow : StepFaults ({ State.reset with sp := 16 }.withFetchWord 16 0x2300) .stackOverflow :=
  stepFaults_of (r := ⟨.stackOverflow, some 0x200, some 0x2300, none⟩) (by decide)

theorem witness_stackUnderflow : StepFaults (State.reset.withFetchWord 16 0x00EE) .stackUnderflow :=
  stepFaults_of (r := ⟨.stackUnderflow, some 0x200, some 0x00EE, none⟩) (by decide)

/-- V63: the first address past memory, for a sprite that starts inside it. -/
theorem witness_memRange : StepFaults ({ State.reset with i := 0xFF2 }.withFetchWord 16 0xD00F) .memRange :=
  stepFaults_of (r := ⟨.memRange, some 0x200, some 0xD00F, some 0x1000⟩) (by decide)

theorem witness_fontWrite : StepFaults ({ State.reset with i := 0x04F }.withFetchWord 16 0xF055) .fontWrite :=
  stepFaults_of (r := ⟨.fontWrite, some 0x200, some 0xF055, some 0x04F⟩) (by decide)

theorem witness_keyRange : StepFaults ((regs [(0, 0x10)]).withFetchWord 16 0xE0A1) .keyRange :=
  stepFaults_of (r := ⟨.keyRange, some 0x200, some 0xE0A1, some 0x10⟩) (by decide)

/-- For AFaultChangesNothingButTheRecord and FaultsHaveOnlyTheListedCauses: each kind that a step can raise. -/
theorem witness_FaultsHaveOnlyTheListedCauses :
    ∀ c : Fault, c ≠ .programTooLarge → ∃ s, StepFaults s c := by
  intro c hc
  cases c
  case fetchRange => exact ⟨_, witness_fetchRange⟩
  case illegalOpcode => exact ⟨_, witness_illegalOpcode⟩
  case stackOverflow => exact ⟨_, witness_stackOverflow⟩
  case stackUnderflow => exact ⟨_, witness_stackUnderflow⟩
  case memRange => exact ⟨_, witness_memRange⟩
  case fontWrite => exact ⟨_, witness_fontWrite⟩
  case keyRange => exact ⟨_, witness_keyRange⟩
  case programTooLarge => exact absurd rfl hc

theorem witness_AFaultChangesNothingButTheRecord : ∃ s, StepFaults s .memRange := ⟨_, witness_memRange⟩

/-- A halted core with a read scheduled takes a step. -/
theorem witness_AHaltedCoreNeverChanges :
    ∃ s t, State.fault s ≠ none ∧ Changes .timerTick ∧ step s = .next t :=
  ⟨{ State.reset with fault := some ⟨.keyRange, none, none, none⟩, schedule := [.readKeys] }, _, by decide, trivial, rfl⟩

theorem witness_OnlyAHaltedCoreHasNoStep : State.reset.fault = none := rfl

/-- R80's second clause. -/
theorem witness_NopChangesNothing : decodeWord 0 = .ok .nop := by decide

/-- The first and the last entry, and the empty stack. -/
theorem witness_ReturnPopsIntoPc :
    { State.reset with sp := 1 }.sp.val = (0 : Fin 16).val + 1 ∧ { State.reset with sp := 16 }.sp.val = (15 : Fin 16).val + 1 ∧
    State.reset.sp.val = 0 := by decide

/-- The empty stack, the last free entry, and the full stack. -/
theorem witness_CallPushesTheReturnAddress :
    State.reset.sp.val = (0 : Fin 16).val ∧ { State.reset with sp := 15 }.sp.val = (15 : Fin 16).val ∧
    { State.reset with sp := 16 }.sp.val = 16 := by decide

theorem witness_ImmediateSkipsComparePlainBytes : (regs [(3, 0x42)]).readV 3 = 0x42 ∧ (regs [(3, 0x41)]).readV 3 ≠ 0x42 := by
  decide

theorem witness_RegisterSkipsIgnoreTheLowNibble :
    (regs [(0, 4), (1, 4)]).readV 0 = (regs [(0, 4), (1, 4)]).readV 1 ∧ (regs [(0, 4)]).readV 0 ≠ (regs [(0, 4)]).readV 1 := by
  decide

/-- The state right after the call is one that a return finds. -/
theorem witness_ReturnUndoesCall :
    ∃ s t u : State, s.sp.val < 16 ∧ exec (.call 0x300) s = .next t ∧ u.sp = t.sp ∧ u.stack = t.stack := by
  obtain ⟨t, h, _⟩ := next_of_nextThen
    (o := exec (.call 0x300) { State.reset with sp := 15 }) (p := fun _ => true) (by decide)
  exact ⟨_, t, t, by decide, h, rfl, rfl⟩

/-- For every statement that tells registers apart: a destination that is VF, one that is not, and a third register. -/
theorem witness_registers_differ : (15 : Reg) = vf ∧ (0 : Reg) ≠ vf ∧ (1 : Reg) ≠ 0 ∧ (1 : Reg) ≠ vf := by decide

/-- The lowest and the highest legal I, the last font byte, and the first I that runs past memory. -/
theorem witness_BcdStoresThreeDigits :
    0x050 ≤ { State.reset with i := 0x050 }.i.toNat ∧ { State.reset with i := 0xFFD }.i.toNat + 2 ≤ 0xFFF ∧
    { State.reset with i := 0x04F }.i.toNat ≤ 0x04F ∧ 0xFFE ≤ { State.reset with i := 0xFFE }.i.toNat ∧
    ∀ k, k < 3 → 0x200 ≠ { State.reset with i := 0xFFD }.dataAddr k := by decide

theorem witness_StoreBlockWritesV0ToVx :
    0x050 ≤ { State.reset with i := 0xFF0 }.i.toNat ∧ { State.reset with i := 0xFF0 }.i.toNat + (15 : Reg).val ≤ 0xFFF ∧
    { State.reset with i := 0x04F }.i.toNat ≤ 0x04F ∧
    0xFFF < { State.reset with i := 0xFF1 }.i.toNat + (15 : Reg).val ∧
    ∀ k : Reg, k ≤ 15 → 0x200 ≠ { State.reset with i := 0xFF0 }.dataAddr k.val := by decide

theorem witness_LoadBlockReadsV0ToVx :
    { State.reset with i := 0xFF0 }.i.toNat + (15 : Reg).val ≤ 0xFFF ∧
    0xFFF < { State.reset with i := 0xFF1 }.i.toNat + (15 : Reg).val ∧ (1 : Reg) ≤ 1 ∧ ¬ (2 : Reg) ≤ 1 := by decide

theorem witness_StoredBytesAreFetchedAsCode :
    0x050 ≤ { State.reset with i := 0xFFE }.i.toNat ∧ { State.reset with i := 0xFFE }.i.toNat + (1 : Reg).val ≤ 0xFFF ∧
    (0 : Reg) < 1 ∧ (0xFFE : Word).toNat = { State.reset with i := 0xFFE }.dataAddr (0 : Reg).val := by decide

/-- A one-row sprite at the last byte of memory that sets cell (0, 0); the cell lit and unlit; and a row too many. -/
theorem witness_DrawXorsTheSpriteAndReportsCollision :
    let s : State := { State.reset with i := 0xFFF, mem := [(0xFFF, 0x80)] }
    (1 < 16 ∧ s.i.toNat + 1 ≤ 0x1000) ∧ SpriteSets s 0 1 1 0 0 ∧ ¬ SpriteSets s 0 1 0 0 0 ∧
    s.fb.cell 0 0 = false ∧ (Framebuffer.flip s.fb 0 0).cell 0 0 = true ∧ 0x1000 < s.i.toNat + 2 := by
  refine ⟨by decide, ⟨0, 0, by decide, by decide, by decide, by decide, by decide⟩, ?_, by decide, by decide, by decide⟩
  rintro ⟨j, b, hj, _⟩
  exact absurd hj (Nat.not_lt_zero j)

/-- W5: the second draw starts from what the first one left. -/
theorem witness_DrawingTwiceRestoresTheScreen :
    ∃ s t u : State, (1 < 16 ∧ s.i.toNat + 1 ≤ 0x1000) ∧ exec (.drw 0 1 1) s = .next t ∧ u.fb = t.fb ∧ u.i = s.i ∧
      u.readV 0 = s.readV 0 ∧ u.readV 1 = s.readV 1 ∧ ∀ j, j < 1 → u.readMem (s.dataAddr j) = s.readMem (s.dataAddr j) := by
  obtain ⟨t, h, _⟩ := next_of_nextThen (p := fun _ => true)
    (o := exec (.drw 0 1 1) { regs [(0, 10), (1, 5)] with i := 0xFFF, mem := [(0xFFF, 0x80)] }) (by decide)
  exact ⟨_, t, { regs [(0, 10), (1, 5)] with i := 0xFFF, mem := [(0xFFF, 0x80)], fb := t.fb }, by decide, h,
    rfl, rfl, rfl, rfl, fun _ _ => rfl⟩

/-- The highest key, held and not held, and the first value that is no key. -/
theorem witness_KeySkipsReadTheLatch :
    (regs [(5, 0x0F)]).readV 5 = BitVec.ofNat 8 (15 : Reg).val ∧
    { regs [(5, 0x0F)] with keys := held [15] }.keyDown 15 = true ∧ (regs [(5, 0x0F)]).keyDown 15 = false ∧
    0x0F < ((regs [(5, 0x10)]).readV 5).toNat := by decide

theorem witness_KeyWaitTakesTheLowestKey :
    { State.reset with keys := held [9, 5] }.keyDown 5 = true ∧
    (∀ j : Reg, j < 5 → { State.reset with keys := held [9, 5] }.keyDown j = false) ∧
    ∀ k : Reg, State.reset.keyDown k = false := by decide

/-- A wait, with latches in which only the lowest key, only the highest, and two keys are held. -/
theorem witness_KeyWaitLeavesTheStateAsItWas :
    (State.reset.withFetchWord 16 0xF30A).waitsForKey ∧ (State.reset.withFetchWord 16 0xF30A).schedule = [] ∧
    (State.reset.withFetchWord 16 0xF30A).fetch = some (encode (.ldVxK 3)) ∧
    (held [0]).get 0 = true ∧ (held [15]).get 15 = true ∧ (held [9, 5]).get 5 = true :=
  ⟨⟨rfl, ⟨3, by decide⟩, by decide⟩, rfl, by decide, by decide, by decide, by decide⟩

/-- W10: key 7, which is not key 0, ends the wait. -/
theorem test_key_wait_ends : stepOn { State.reset with keys := held [7] } 0xF30A
    (fun t => t.readV 3 == 7 && t.pc == 0x202) = true := by decide

theorem witness_SelfJumpRepeatsForEver :
    (State.reset.withFetchWord 16 0x1200).endsAt 0x200 ∧ (State.reset.withFetchWord 16 0x1200).schedule = [] :=
  ⟨⟨rfl, rfl, 0x200, by decide, rfl⟩, rfl⟩

/-- Timers at 0 and at their ends, and ST at 1. -/
theorem witness_TickCountsDownToZero :
    State.reset.fault = none ∧ 0 < { State.reset with dt := 0xFF }.dt.toNat ∧ State.reset.dt.toNat = 0 ∧
    0 < { State.reset with st := 1 }.st.toNat ∧ { State.reset with st := 1 }.st.toNat = 1 ∧ State.reset.st.toNat = 0 := by
  decide

/-- The longest image and one byte more, in a running core. -/
theorem witness_LoadProgramCopiesTheImage :
    State.reset.fault = none ∧ (List.replicate 3584 (0 : Byte)).length ≤ 3584 ∧
    3584 < (List.replicate 3585 (0 : Byte)).length :=
  ⟨rfl, List.length_replicate.le, by rw [List.length_replicate]; decide⟩

theorem witness_SetKeysWritesTheLatch :
    State.reset.fault = none ∧ { State.reset with fault := some ⟨.keyRange, none, none, none⟩ }.fault ≠ none := by decide

theorem witness_HostReadsAndStepResult :
    (∃ s t, executeStep s = .next t ∧ t.fault = none) ∧ ∃ s t r, executeStep s = .next t ∧ t.fault = some r := by
  obtain ⟨t, h1, h2⟩ := next_of_nextThen (o := executeStep State.reset) (p := fun t => t.fault == none) (by decide)
  obtain ⟨u, h3, h4⟩ := next_of_nextThen (o := executeStep { State.reset with pc := 0xFFF })
    (p := fun t => t.fault == some ⟨.fetchRange, some 0xFFF, none, some 0xFFF⟩) (by decide)
  exact ⟨⟨_, t, h1, by simpa using h2⟩, ⟨_, u, _, h3, by simpa using h4⟩⟩

/-- The last font byte, and the first and last byte above the font. -/
theorem witness_InitInstallsTheFontAndZeros : 79 < 80 ∧ (80 ≤ 80 ∧ 80 ≤ 0xFFF) ∧ (80 ≤ 0xFFF ∧ 0xFFF ≤ 0xFFF) := by
  decide

/-- An image of two bytes, and the longest one. -/
theorem witness_TheFirstFetchIsOfTheLoadedProgram :
    ([] : List Byte).length ≤ 3582 ∧ (List.replicate 3582 (0 : Byte)).length ≤ 3582 :=
  ⟨by decide, List.length_replicate.le⟩

theorem witness_inv : State.reset.Inv := ⟨by decide, by decide, by decide⟩

/-- A step on an instruction that reaches the bound on PC (V16), and one that performs a scheduled operation. -/
theorem witness_EveryStepKeepsTheInvariant :
    (∃ s t, State.Inv s ∧ step s = .next t ∧ t.pc.toNat = 0x10FE) ∧
    ∃ s t, State.Inv s ∧ step s = .next t ∧ t.mem = [(0x200, 0x12)] := by
  obtain ⟨t, h1, h2⟩ := next_of_nextThen (o := step ((regs [(0, 0xFF)]).withFetchWord 16 0xBFFF))
    (p := fun t => t.pc.toNat == 0x10FE) (by decide)
  obtain ⟨u, h3, h4⟩ := next_of_nextThen (o := step { State.reset with schedule := [.loadProgram [0x12]] })
    (p := fun t => t.mem == [(0x200, 0x12)]) (by decide)
  exact ⟨⟨_, t, ⟨by decide, by decide, by decide⟩, h1, by simpa using h2⟩,
    ⟨_, u, ⟨by decide, by decide, by decide⟩, h3, by simpa using h4⟩⟩

theorem witness_NoStepWritesTheFont : ∃ t, step State.reset = .next t := by
  obtain ⟨t, h, _⟩ := next_of_nextThen (o := step State.reset) (p := fun _ => true) (by decide)
  exact ⟨t, h⟩

/-- The first and last writable address, the last font byte, and the first address past memory. -/
theorem witness_DataWritesAreReadBack :
    (0x050 ≤ 0x050 ∧ 0x050 ≤ 0xFFF) ∧ (0x050 ≤ 0xFFF ∧ 0xFFF ≤ 0xFFF) ∧ 0x04F ≤ 0x04F ∧ 0xFFF < 0x1000 := by decide

theorem witness_MemoriesThatReadAlikeAreEqual : Memory.wf defaultFont [(0x050, 1), (0xFFF, 2)] = true := by decide

/-- R22: an ordinary destination leaves VF. -/
theorem witness_InstructionsWriteOnlyTheirRegisters :
    ∃ t, exec (.addImm 0 1) State.reset = .next t ∧ ¬ MayWriteV (.addImm 0 1) vf :=
  ⟨_, rfl, fun h => absurd h (show ¬ vf = 0 by decide)⟩

theorem witness_OnlyThreeInstructionsWriteI :
    ∃ t, exec (.ldI 0x300) State.reset = .next t ∧ t.i ≠ State.reset.i := ⟨_, rfl, by decide⟩

theorem witness_TheStackIsPrivateToCallAndReturn :
    ∃ t, exec .nop State.reset = .next t ∧ (∀ nnn, Instr.nop ≠ .call nnn) ∧ Instr.nop ≠ .ret :=
  ⟨_, rfl, fun _ => nofun, nofun⟩

/-- A draw changes the framebuffer and a store changes memory. -/
theorem witness_ScreenMemoryAndKeysHaveTheirWriters :
    (∃ s t, exec (.drw 0 0 1) s = .next t ∧ t.fb ≠ s.fb) ∧ ∃ s t, exec (.storeRegs 0) s = .next t ∧ t.mem ≠ s.mem := by
  obtain ⟨t, h1, h2⟩ := next_of_nextThen (o := exec (.drw 0 0 1) State.reset) (p := fun t => !(t.fb == State.reset.fb))
    (by decide)
  obtain ⟨u, h3, h4⟩ := next_of_nextThen (o := exec (.storeRegs 0) { regs [(0, 7)] with i := 0x050 })
    (p := fun t => !(t.mem == [])) (by decide)
  exact ⟨⟨_, t, h1, by simpa using h2⟩, ⟨_, u, h3, show ¬ u.mem = [] by simpa using h4⟩⟩

/-- A write of DT, and an instruction that is not Fx18. -/
theorem witness_NoInstructionReadsTheSoundTimer :
    (∃ s t, exec (.ldDtVx 0) s = .next t ∧ t.dt ≠ s.dt) ∧ ∀ x, Instr.ldDtVx 0 ≠ .ldStVx x :=
  ⟨⟨regs [(0, 3)], _, rfl, by decide⟩, fun _ => nofun⟩

end Sys2Proof.Tests
end

section
/-! Proofs of the statements of family 00_scope: a step is a whole host operation (R5). -/

namespace Sys2Proof.Machine

/-- Where a host operation has a next state, the machine moves to it and drops the answer (R139). -/
theorem performOp_of_next {op : HostOp} {s t : State} {r : HostResult} (h : hostOp op s = .next (t, r)) :
    performOp op s = .next t := by
  rw [performOp, h]

/-- Where a host operation is refused, so is the machine's move, for the same reason (R126). -/
theorem performOp_of_refused {op : HostOp} {s : State} {r : Refusal} (h : hostOp op s = .refused r) :
    performOp op s = .refused r := by
  rw [performOp, h]

/-- Settles O8: a step with an operation scheduled is that operation (`step_scheduled`), in the next and in the halted
case. -/
theorem stepPerformsTheNextScheduledOperation : Obligations.StepPerformsTheNextScheduledOperation := by
  intro s op rest hs
  rw [step_scheduled hs]
  exact ⟨fun _ _ => performOp_of_next, performOp_of_refused⟩

end Sys2Proof.Machine
end

section
/-! Proofs of the statements of family 10_state: the reset state, everything an instruction can do to the state said
once (`exec_effect`), the invariant, and the parts of the state that instructions do not read. -/

namespace Sys2Proof.Machine

/-! ### The state after reset (R37 to R44) -/

/-- The zeroed registers, `I`, stack and timers are data of `State.init`. Settles O46. -/
theorem initClearsTheRegisters : Obligations.InitClearsTheRegisters := by
  intro font
  have hv : ∀ k, (State.init font).readV k = 0 := fun k => by simp [State.readV, State.init]
  have hs : ∀ j, (State.init font).stack.get j = 0 := fun j => by simp [State.init]
  exact ⟨hv, rfl, rfl, rfl, hs, rfl, rfl⟩

/-- With no cell listed, memory reads as its reset content. -/
theorem State.readMem_init (font : Font) (a : Nat) : (State.init font).readMem a = unlisted font a := rfl

/-- Settles O47: `unlisted` is the font below 0x050 and zero above. -/
theorem initInstallsTheFontAndZeros : Obligations.InitInstallsTheFontAndZeros := by
  intro font
  refine ⟨fun a ha => ?_, fun a ha _ => ?_⟩
  · rw [State.readMem_init, unlisted, dif_pos ha]
  · rw [State.readMem_init, unlisted, dif_neg (by simp; omega)]

/-- Settles O48: the latch and every column of the screen are replicated `false`. -/
theorem initClearsScreenKeysAndFault : Obligations.InitClearsScreenKeysAndFault := by
  intro font
  have hfb : ∀ c r, (State.init font).fb.cell c r = false := fun c r => by simp [Framebuffer.cell, State.init]
  have hk : ∀ k, (State.init font).keyDown k = false := fun k => by simp [State.keyDown, State.init]
  exact ⟨hfb, hk, rfl⟩

theorem State.init_inv (font : Font) : (State.init font).Inv where
  mem_wf := rfl
  pc_le := by simp [State.init]
  stack_le j := by simp [State.init]

/-- Settles O49: nothing is listed, PC is 0x200 and every stack entry is 0 (`State.init_inv`). -/
theorem resetMeetsTheInvariant : Obligations.ResetMeetsTheInvariant :=
  fun font => ⟨State.init_inv font, State.init_inv defaultFont⟩

/-! ### Everything an instruction can do to the state -/

/-- Every register that the instruction may not write reads in `t` as it does in `s`. -/
def KeepsOtherRegs (i : Instr) (s t : State) : Prop := ∀ k, ¬ MayWriteV i k → t.readV k = s.readV k

theorem KeepsOtherRegs.refl (i : Instr) (s : State) : KeepsOtherRegs i s s := fun _ _ => rfl

theorem KeepsOtherRegs.writeV {i : Instr} {s t : State} {x : Reg} {b : Byte} (h : KeepsOtherRegs i s t)
    (hx : MayWriteV i x) : KeepsOtherRegs i s (t.writeV x b) := by
  intro k hk
  have hne : k ≠ x := fun e => hk (e ▸ hx)
  rw [State.readV_writeV_ne t hne, h k hk]

theorem KeepsOtherRegs.writeRegs {i : Instr} {s t : State} {ks : List Reg} (h : KeepsOtherRegs i s t)
    (hks : ∀ x ∈ ks, MayWriteV i x) (bs : List Byte) : KeepsOtherRegs i s (t.writeRegs ks bs) := by
  induction ks generalizing t bs with
  | nil => exact h
  | cons x ks ih =>
    cases bs with
    | nil => exact h
    | cons b bs =>
      obtain ⟨hx, hks⟩ := List.forall_mem_cons.mp hks
      exact ih (h.writeV hx) hks bs

/-- Where PC may go, seen from the pre-advanced PC of `s`: it stays, skips, goes back to the instruction itself, or
jumps, at most to 0x10FE (R82, R84, R88, R118). -/
def PcTarget (s : State) (w : Word) : Prop := w = s.pc ∨ w = s.pc + 2 ∨ w = s.pc - 2 ∨ w.toNat ≤ 0x10FE

/-- What the instruction `i` can turn the pre-advanced state `s` into: one case for each group of fields that it may
write together, with the instructions that do so and the bounds on what they write. -/
inductive Effect (i : Instr) (s : State) : State → Prop
  /-- A fault: the pre-advance is undone (R125). -/
  | faulted (r : FaultRecord) : Effect i s { s with pc := s.pc - 2, fault := some r }
  /-- Only PC. -/
  | moved (w : Word) (hw : PcTarget s w) : Effect i s { s with pc := w }
  /-- PC from a stack entry, and SP. -/
  | returned (hi : i = .ret) (j : Fin 16) (sp : Fin 17) : Effect i s { s with pc := s.stack.get j, sp := sp }
  /-- The pre-advanced PC onto the stack, SP, and PC. -/
  | called (hi : ∃ nnn, i = .call nnn) (nnn : Addr) (h : s.sp.val < 16) (sp : Fin 17) :
      Effect i s { s with pc := zextAddr nnn, stack := s.stack.set s.sp.val s.pc h, sp := sp }
  /-- Registers, and the model's count of draws (Cxnn). -/
  | wroteRegs (v : Vector Byte 16) (draws : Nat) (hv : KeepsOtherRegs i s { s with v := v, draws := draws }) :
      Effect i s { s with v := v, draws := draws }
  /-- The address register. -/
  | wroteI (hi : (∃ nnn, i = .ldI nnn) ∨ (∃ x, i = .addI x) ∨ ∃ x, i = .ldF x) (a : Addr) :
      Effect i s { s with i := a }
  /-- The delay timer. -/
  | wroteDt (hi : ∃ x, i = .ldDtVx x) (b : Byte) : Effect i s { s with dt := b }
  /-- The sound timer. -/
  | wroteSt (hi : ∃ x, i = .ldStVx x) (b : Byte) : Effect i s { s with st := b }
  /-- A block of memory inside the writable region. -/
  | stored (hi : (∃ x, i = .ldB x) ∨ ∃ x, i = .storeRegs x) (a : Nat) (bs : List Byte) (h1 : Config.fontSize ≤ a)
      (h2 : a + bs.length ≤ Config.memSize) : Effect i s { s with mem := s.mem.writeBytes s.font a bs }
  /-- The framebuffer, and the collision flag of Dxyn. -/
  | drew (hi : i = .cls ∨ ∃ x y n, i = .drw x y n) (fb : Framebuffer) (v : Vector Byte 16)
      (hv : KeepsOtherRegs i s { s with fb := fb, v := v }) : Effect i s { s with fb := fb, v := v }

/-- A write of one register that the instruction may write. -/
theorem Effect.writeV {i : Instr} {s : State} {x : Reg} {b : Byte} (hx : MayWriteV i x) : Effect i s (s.writeV x b) :=
  .wroteRegs _ s.draws ((KeepsOtherRegs.refl i s).writeV hx)

/-- Two such writes, one of them the flag's. -/
theorem Effect.writeV_writeV {i : Instr} {s : State} {x y : Reg} {b c : Byte} (hx : MayWriteV i x)
    (hy : MayWriteV i y) : Effect i s ((s.writeV x b).writeV y c) :=
  .wroteRegs _ s.draws (((KeepsOtherRegs.refl i s).writeV hx).writeV hy)

theorem Effect.skipIf (i : Instr) (s : State) (c : Bool) : Effect i s (s.skipIf c) := by
  cases c with
  | false => exact .moved s.pc (.inl rfl)
  | true => exact .moved (s.pc + 2) (.inr (.inl rfl))

/-- The instruction has a next state in `s`, and it is one of the listed effects. -/
def HasEffect (i : Instr) (s : State) : Prop := ∃ t, exec i s = .next t ∧ Effect i s t

theorem HasEffect.of_raiseFault {i j : Instr} {s : State} {c : Fault} {info : Option Nat}
    (h : exec i s = raiseFault c j info s) : HasEffect i s := ⟨_, h, .faulted _⟩

theorem exec_hasEffect (i : Instr) (s : State) : HasEffect i s := by
  cases i with
  | nop => exact ⟨_, rfl, .moved s.pc (.inl rfl)⟩
  | cls => exact ⟨_, rfl, .drew (.inl rfl) _ s.v (.refl _ s)⟩
  | ret =>
    rcases execRet_cases s with ⟨h, e⟩ | ⟨-, e⟩
    · exact ⟨_, e, .returned rfl ⟨s.sp.val - 1, by omega⟩ _⟩
    · exact .of_raiseFault e
  | jp nnn => exact ⟨_, rfl, .moved _ (.inr (.inr (.inr (by rw [zextAddr_toNat]; omega))))⟩
  | call nnn =>
    rcases execCall_cases nnn s with ⟨h, e⟩ | ⟨-, e⟩
    · exact ⟨_, e, .called ⟨nnn, rfl⟩ nnn h _⟩
    · exact .of_raiseFault e
  | seImm | sneImm | seReg | sneReg => exact ⟨_, rfl, .skipIf _ s _⟩
  | ldImm | addImm | ldReg | orReg | andReg | xorReg | ldVxDt => exact ⟨_, rfl, .writeV rfl⟩
  | addReg | subReg | subnReg => exact ⟨_, rfl, .writeV_writeV (.inl rfl) (.inr rfl)⟩
  | shr | shl => exact ⟨_, rfl, .writeV_writeV (.inr rfl) (.inl rfl)⟩
  | ldI nnn => exact ⟨_, rfl, .wroteI (.inl ⟨nnn, rfl⟩) _⟩
  | addI x => exact ⟨_, rfl, .wroteI (.inr (.inl ⟨x, rfl⟩)) _⟩
  | ldF x => exact ⟨_, rfl, .wroteI (.inr (.inr ⟨x, rfl⟩)) _⟩
  | jpV0 nnn =>
    have hsum : (zextByte (s.readV 0) + zextAddr nnn).toNat ≤ 0x10FE := by
      rw [BitVec.toNat_add, zextByte_toNat, zextAddr_toNat]; omega
    exact ⟨_, rfl, .moved _ (.inr (.inr (.inr hsum)))⟩
  | rnd x nn =>
    exact ⟨_, rfl, .wroteRegs _ _ ((KeepsOtherRegs.refl _ s).writeV (x := x) rfl)⟩
  | drw x y n =>
    rcases execDrw_cases x y n s with ⟨-, e⟩ | ⟨-, e⟩
    · exact ⟨_, e, .drew (.inr ⟨x, y, n, rfl⟩) _ _ ((KeepsOtherRegs.refl _ s).writeV rfl)⟩
    · exact .of_raiseFault e
  | skp x =>
    rcases execSkp_cases x s with ⟨k, -, e⟩ | ⟨-, e⟩
    · exact ⟨_, e, .skipIf _ s _⟩
    · exact .of_raiseFault e
  | sknp x =>
    rcases execSknp_cases x s with ⟨k, -, e⟩ | ⟨-, e⟩
    · exact ⟨_, e, .skipIf _ s _⟩
    · exact .of_raiseFault e
  | ldVxK x =>
    rcases execLdVxK_cases x s with ⟨k, -, e⟩ | ⟨-, e⟩
    · exact ⟨_, e, .writeV rfl⟩
    · exact ⟨_, e, .moved (s.pc - 2) (.inr (.inr (.inl rfl)))⟩
  | ldDtVx x => exact ⟨_, rfl, .wroteDt ⟨x, rfl⟩ _⟩
  | ldStVx x => exact ⟨_, rfl, .wroteSt ⟨x, rfl⟩ _⟩
  | ldB x =>
    rcases execLdB_cases x s with ⟨h1, h2, e⟩ | ⟨-, e⟩ | ⟨-, e⟩
    · have hend : s.dataAddr 0 + (bcdDigits (s.readV x)).length ≤ Config.memSize := by
        simp [State.dataAddr, bcdDigits]; omega
      exact ⟨_, e, .stored (.inl ⟨x, rfl⟩) _ _ h1 hend⟩
    · exact .of_raiseFault e
    · exact .of_raiseFault e
  | storeRegs x =>
    rcases execStoreRegs_cases x s with ⟨h1, h2, e⟩ | ⟨-, e⟩ | ⟨-, -, e⟩
    · have hend : s.dataAddr 0 + ((upTo x).map s.readV).length ≤ Config.memSize := by
        simp [State.dataAddr, length_upTo]; omega
      exact ⟨_, e, .stored (.inr ⟨x, rfl⟩) _ _ h1 hend⟩
    · exact .of_raiseFault e
    · exact .of_raiseFault e
  | loadRegs x =>
    rcases execLoadRegs_cases x s with ⟨-, e⟩ | ⟨-, e⟩
    · refine ⟨_, e, ?_⟩
      have hv := (KeepsOtherRegs.refl (.loadRegs x) s).writeRegs (fun k hk => (mem_upTo x k).mp hk)
        ((List.range (x.val + 1)).map fun k => s.readMem (s.dataAddr k))
      rw [State.writeRegs_frame] at hv ⊢
      exact .wroteRegs _ s.draws hv
    · exact .of_raiseFault e

/-- Everything an instruction can do, said once. -/
theorem exec_effect {i : Instr} {s t : State} (h : exec i s = .next t) : Effect i s t := by
  obtain ⟨u, hu, he⟩ := exec_hasEffect i s
  cases h.symm.trans hu
  exact he

/-! ### Which instructions write a field (R21, R24, R31, R46) -/

/-- Settles O54: only the effects on registers and on the screen reach V, and each keeps the other registers. -/
theorem instructionsWriteOnlyTheirRegisters : Obligations.InstructionsWriteOnlyTheirRegisters := by
  intro i s t k h hk
  cases exec_effect h with
  | wroteRegs v draws hv => exact hv k hk
  | drew hi fb v hv => exact hv k hk
  | _ => rfl

/-- Settles O55: every effect but the one on `I` keeps `I`. -/
theorem onlyThreeInstructionsWriteI : Obligations.OnlyThreeInstructionsWriteI := by
  intro i s t h hne
  cases exec_effect h with
  | wroteI hi a => exact hi
  | _ => exact absurd rfl hne

theorem exec_fb {i : Instr} {s t : State} (h : exec i s = .next t) (hne : t.fb ≠ s.fb) :
    i = .cls ∨ ∃ x y n, i = .drw x y n := by
  cases exec_effect h with
  | drew hi fb v hv => exact hi
  | _ => exact absurd rfl hne

theorem exec_mem {i : Instr} {s t : State} (h : exec i s = .next t) (hne : t.mem ≠ s.mem) :
    (∃ x, i = .ldB x) ∨ ∃ x, i = .storeRegs x := by
  cases exec_effect h with
  | stored hi a bs h1 h2 => exact hi
  | _ => exact absurd rfl hne

theorem exec_keys_font {i : Instr} {s t : State} (h : exec i s = .next t) : t.keys = s.keys ∧ t.font = s.font := by
  cases exec_effect h <;> exact ⟨rfl, rfl⟩

/-- Settles O57: one lemma for each field, from the list of effects. -/
theorem screenMemoryAndKeysHaveTheirWriters : Obligations.ScreenMemoryAndKeysHaveTheirWriters :=
  fun _ _ _ h => ⟨exec_fb h, exec_mem h, exec_keys_font h⟩

/-! ### The invariant (R25, R27, R47) -/

/-- From a state whose PC has been pre-advanced from a place that holds a word, each effect keeps the invariant. -/
theorem Effect.inv {i : Instr} {s t : State} (he : Effect i s t) (hs : s.Inv) (h1 : 2 ≤ s.pc.toNat)
    (h2 : s.pc.toNat ≤ 0x1000) : t.Inv := by
  have hback : (s.pc - 2).toNat ≤ 0x10FE := by bv_omega
  cases he with
  | faulted r => exact ⟨hs.mem_wf, hback, hs.stack_le⟩
  | moved w hw =>
    refine ⟨hs.mem_wf, ?_, hs.stack_le⟩
    rcases hw with rfl | rfl | rfl | hw
    · exact hs.pc_le
    · show (s.pc + 2).toNat ≤ 0x10FE
      bv_omega
    · exact hback
    · exact hw
  | returned hi j sp => exact ⟨hs.mem_wf, (hs.stack_le j).trans (by decide), hs.stack_le⟩
  | called hi nnn h sp =>
    refine ⟨hs.mem_wf, ?_, fun j => ?_⟩
    · show (zextAddr nnn).toNat ≤ 0x10FE
      rw [zextAddr_toNat]; omega
    · have hj := hs.stack_le j
      rw [Vector.get_eq_getElem] at hj ⊢
      rw [Vector.getElem_set]
      split
      · exact h2
      · exact hj
  | stored hi a bs h1 h2 => exact ⟨Memory.wf_writeBytes bs hs.mem_wf h1 h2, hs.pc_le, hs.stack_le⟩
  | _ => exact ⟨hs.mem_wf, hs.pc_le, hs.stack_le⟩

theorem executeStep_inv {s t : State} (hs : s.Inv) (h : executeStep s = .next t) : t.Inv := by
  have hrun : s.fault = none := by
    by_contra hf
    rw [executeStep_halted hf] at h
    cases h
  rcases executeStep_cases hrun h with ⟨-, rfl⟩ | ⟨op, -, -, rfl⟩ | ⟨op, i, hf, -, he⟩
  · exact ⟨hs.mem_wf, hs.pc_le, hs.stack_le⟩
  · exact ⟨hs.mem_wf, hs.pc_le, hs.stack_le⟩
  · have hpc := State.pc_le_of_fetch hf
    have hadv : s.advance.pc.toNat = s.pc.toNat + 2 := by rw [State.advance_pc]; bv_omega
    have hs' : s.advance.Inv := ⟨hs.mem_wf, by omega, hs.stack_le⟩
    exact (exec_effect he).inv hs' (by omega) (by omega)

/-- A halted core refuses every operation that changes state (R126), so one that has a next state was running. -/
theorem fault_none_of_performOp {op : HostOp} {s t : State} (hc : Changes op) (h : performOp op s = .next t) :
    s.fault = none := by
  by_contra hf
  obtain ⟨r, hr⟩ := Option.ne_none_iff_exists'.mp hf
  cases op with
  | executeStep =>
    rw [performOp_executeStep, executeStep_halted hf] at h
    cases h
  | timerTick | setKeys | loadProgram =>
    simp [performOp, hostOp, State.unlessHalted, hr] at h
  | readFramebuffer | readKeys | readFault => exact hc

theorem State.loadProgram_inv {s : State} (hs : s.Inv) (bytes : List Byte) : (s.loadProgram bytes).Inv := by
  rw [State.loadProgram]
  split
  · exact ⟨hs.mem_wf, hs.pc_le, hs.stack_le⟩
  · exact ⟨Memory.wf_writeBytes bytes hs.mem_wf (by decide) (by simp_all; omega), hs.pc_le, hs.stack_le⟩

theorem performOp_inv {op : HostOp} {s t : State} (hs : s.Inv) (h : performOp op s = .next t) : t.Inv := by
  have hrun : Changes op → s.fault = none := fun hc => fault_none_of_performOp hc h
  cases op with
  | executeStep => exact executeStep_inv hs (performOp_executeStep s ▸ h)
  | timerTick =>
    cases (performOp_running (hrun trivial)).1.symm.trans h
    exact ⟨hs.mem_wf, hs.pc_le, hs.stack_le⟩
  | setKeys k =>
    cases ((performOp_running (hrun trivial)).2.1 k).symm.trans h
    exact ⟨hs.mem_wf, hs.pc_le, hs.stack_le⟩
  | loadProgram bytes =>
    cases ((performOp_running (hrun trivial)).2.2 bytes).symm.trans h
    exact State.loadProgram_inv hs bytes
  | readFramebuffer | readKeys | readFault =>
    cases h
    exact hs

/-- Settles O50: a step is `ExecuteStep` or the scheduled operation, and each keeps the invariant; of the instructions'
effects, only those on PC, the stack and memory have something to show (`Effect.inv`). -/
theorem everyStepKeepsTheInvariant : Obligations.EveryStepKeepsTheInvariant := by
  intro s t hs h
  cases hsch : s.schedule with
  | nil => exact executeStep_inv hs (step_unscheduled hsch ▸ h)
  | cons op rest =>
    have hs' : State.Inv { s with schedule := rest } := ⟨hs.mem_wf, hs.pc_le, hs.stack_le⟩
    exact performOp_inv hs' (step_scheduled hsch ▸ h)

/-! ### The parts of the state that few instructions read (R28, R30) -/

/-- A value for one of the two hidden parts of the state: the stack with its pointer, or the sound timer. -/
inductive Hidden where
  | stack (sp : Fin 17) (stack : Vector Word 16)
  | sound (st : Byte)

/-- The state with another value of a hidden part. -/
def State.withHidden (s : State) : Hidden → State
  | .stack sp stack => { s with sp := sp, stack := stack }
  | .sound st => { s with st := st }

/-- The instructions that a hidden part matters to: the others neither read nor write it. -/
def Uses (i : Instr) : Hidden → Prop
  | .stack _ _ => (∃ nnn, i = .call nnn) ∨ i = .ret
  | .sound _ => ∃ x, i = .ldStVx x

/-- Change the next state of an outcome. -/
def mapNext (f : State → State) : Host.Outcome State Fault Refusal → Host.Outcome State Fault Refusal
  | .next t => .next (f t)
  | .fault r => .fault r
  | .refused r => .refused r

theorem State.readBytes_withHidden (s : State) (p : Hidden) (a n : Nat) :
    (s.withHidden p).readBytes a n = s.readBytes a n := by
  have hread : ∀ a, (s.withHidden p).memRead a = s.memRead a := fun a => by cases p <;> rfl
  induction n generalizing a with
  | zero => rfl
  | succ n ih => rw [State.readBytes, State.readBytes, hread, ih]

theorem State.storeBytes_withHidden (s : State) (p : Hidden) (a : Nat) (bs : List Byte) :
    (s.withHidden p).storeBytes a bs = (s.storeBytes a bs).map (·.withHidden p) := by
  have hwrite : ∀ (s : State) a b, (s.withHidden p).memWrite a b = (s.memWrite a b).map (·.withHidden p) := by
    intro s a b
    rw [State.memWrite, State.memWrite]
    split
    · rfl
    · split
      · rfl
      · cases p <;> rfl
  induction bs generalizing s a with
  | nil => rfl
  | cons b bs ih =>
    rw [State.storeBytes, State.storeBytes, hwrite]
    cases s.memWrite a b with
    | error e => rfl
    | ok t => exact ih t (a + 1)

theorem State.writeRegs_withHidden (s : State) (p : Hidden) (ks : List Reg) (bs : List Byte) :
    (s.withHidden p).writeRegs ks bs = (s.writeRegs ks bs).withHidden p := by
  have hwrite : ∀ (s : State) x b, (s.withHidden p).writeV x b = (s.writeV x b).withHidden p := fun s x b => by
    cases p <;> rfl
  induction ks generalizing s bs with
  | nil => cases bs <;> rfl
  | cons k ks ih =>
    cases bs with
    | nil => rfl
    | cons b bs => rw [State.writeRegs, State.writeRegs, hwrite, ih]

theorem State.skipIf_withHidden (s : State) (p : Hidden) (c : Bool) :
    (s.withHidden p).skipIf c = (s.skipIf c).withHidden p := by
  cases p <;> cases c <;> rfl

theorem raiseFault_withHidden (c : Fault) (i : Instr) (info : Option Nat) (s : State) (p : Hidden) :
    raiseFault c i info (s.withHidden p) = mapNext (·.withHidden p) (raiseFault c i info s) := by
  cases p <;> rfl

theorem finish_withHidden (i : Instr) (s : State) (p : Hidden) (r : Except AccessFault State) :
    finish i (s.withHidden p) (r.map (·.withHidden p)) = mapNext (·.withHidden p) (finish i s r) := by
  cases r with
  | ok t => rfl
  | error e => exact raiseFault_withHidden e.code i _ s p

theorem State.readV_withHidden (s : State) (p : Hidden) : (s.withHidden p).readV = s.readV := by cases p <;> rfl

theorem State.dataAddr_withHidden (s : State) (p : Hidden) : (s.withHidden p).dataAddr = s.dataAddr := by
  cases p <;> rfl

theorem State.keyDown_withHidden (s : State) (p : Hidden) : (s.withHidden p).keyDown = s.keyDown := by
  cases p <;> rfl

theorem State.lowestKey_withHidden (s : State) (p : Hidden) : (s.withHidden p).lowestKey = s.lowestKey := by
  rw [State.lowestKey, State.keyDown_withHidden, State.lowestKey]

theorem execRet_withSound (s : State) (st : Byte) :
    execRet (s.withHidden (.sound st)) = mapNext (·.withHidden (.sound st)) (execRet s) := by
  by_cases h : 0 < s.sp.val
  · have h' : 0 < (s.withHidden (.sound st)).sp.val := h
    rw [execRet, execRet, s.pop_ok h, State.pop_ok _ h']; rfl
  · have h0 : s.sp.val = 0 := by omega
    have h0' : (s.withHidden (.sound st)).sp.val = 0 := h0
    rw [execRet, execRet, s.pop_empty h0, State.pop_empty _ h0']; rfl

theorem execCall_withSound (nnn : Addr) (s : State) (st : Byte) :
    execCall nnn (s.withHidden (.sound st)) = mapNext (·.withHidden (.sound st)) (execCall nnn s) := by
  by_cases h : s.sp.val < 16
  · have h' : (s.withHidden (.sound st)).sp.val < 16 := h
    rw [execCall, execCall, s.push_ok _ h, State.push_ok _ _ h']; rfl
  · have h16 : s.sp.val = 16 := by omega
    have h16' : (s.withHidden (.sound st)).sp.val = 16 := h16
    rw [execCall, execCall, s.push_full _ h16, State.push_full _ _ h16']; rfl

theorem execDrw_withHidden (x y : Reg) (n : Nat) (s : State) (p : Hidden) :
    execDrw x y n (s.withHidden p) = mapNext (·.withHidden p) (execDrw x y n s) := by
  rw [execDrw, execDrw, State.dataAddr_withHidden, State.readBytes_withHidden]
  cases s.readBytes (s.dataAddr 0) n with
  | error e => exact raiseFault_withHidden ..
  | ok rows => cases p <;> rfl

theorem execLoadRegs_withHidden (x : Reg) (s : State) (p : Hidden) :
    execLoadRegs x (s.withHidden p) = mapNext (·.withHidden p) (execLoadRegs x s) := by
  rw [execLoadRegs, execLoadRegs, State.dataAddr_withHidden, State.readBytes_withHidden]
  cases s.readBytes (s.dataAddr 0) (x.val + 1) with
  | error e => exact raiseFault_withHidden ..
  | ok bs => exact congrArg Host.Outcome.next (s.writeRegs_withHidden p _ bs)

theorem execLdB_withHidden (x : Reg) (s : State) (p : Hidden) :
    execLdB x (s.withHidden p) = mapNext (·.withHidden p) (execLdB x s) := by
  rw [execLdB, State.dataAddr_withHidden, State.readV_withHidden, State.storeBytes_withHidden, finish_withHidden]; rfl

theorem execStoreRegs_withHidden (x : Reg) (s : State) (p : Hidden) :
    execStoreRegs x (s.withHidden p) = mapNext (·.withHidden p) (execStoreRegs x s) := by
  rw [execStoreRegs, State.dataAddr_withHidden, State.readV_withHidden, State.storeBytes_withHidden,
    finish_withHidden]; rfl

theorem execSkp_withHidden (x : Reg) (s : State) (p : Hidden) :
    execSkp x (s.withHidden p) = mapNext (·.withHidden p) (execSkp x s) := by
  rw [execSkp, execSkp, State.readV_withHidden]
  cases keyOf (s.readV x) with
  | none => exact raiseFault_withHidden ..
  | some k =>
    rw [State.keyDown_withHidden]
    exact congrArg Host.Outcome.next (s.skipIf_withHidden p _)

theorem execSknp_withHidden (x : Reg) (s : State) (p : Hidden) :
    execSknp x (s.withHidden p) = mapNext (·.withHidden p) (execSknp x s) := by
  rw [execSknp, execSknp, State.readV_withHidden]
  cases keyOf (s.readV x) with
  | none => exact raiseFault_withHidden ..
  | some k =>
    rw [State.keyDown_withHidden]
    exact congrArg Host.Outcome.next (s.skipIf_withHidden p _)

theorem execLdVxK_withHidden (x : Reg) (s : State) (p : Hidden) :
    execLdVxK x (s.withHidden p) = mapNext (·.withHidden p) (execLdVxK x s) := by
  rw [execLdVxK, execLdVxK, State.lowestKey_withHidden]
  cases s.lowestKey <;> cases p <;> rfl

/-- Noninterference: an instruction that does not use a hidden part does the same whatever that part holds. -/
theorem exec_withHidden {i : Instr} {p : Hidden} (hi : ¬ Uses i p) (s : State) :
    exec i (s.withHidden p) = mapNext (·.withHidden p) (exec i s) := by
  have skip : ∀ c, Host.Outcome.next ((s.withHidden p).skipIf c) = mapNext (·.withHidden p) (.next (s.skipIf c)) :=
    fun c => congrArg Host.Outcome.next (s.skipIf_withHidden p c)
  cases i with
  | ret =>
    cases p with
    | stack sp stack => exact absurd (.inr rfl) hi
    | sound st => exact execRet_withSound s st
  | call nnn =>
    cases p with
    | stack sp stack => exact absurd (.inl ⟨nnn, rfl⟩) hi
    | sound st => exact execCall_withSound nnn s st
  | ldStVx x =>
    cases p with
    | stack sp stack => rfl
    | sound st => exact absurd ⟨x, rfl⟩ hi
  | seImm | sneImm | seReg | sneReg => cases p <;> exact skip _
  | drw x y n => exact execDrw_withHidden x y n s p
  | skp x => exact execSkp_withHidden x s p
  | sknp x => exact execSknp_withHidden x s p
  | ldVxK x => exact execLdVxK_withHidden x s p
  | ldB x => exact execLdB_withHidden x s p
  | storeRegs x => exact execStoreRegs_withHidden x s p
  | loadRegs x => exact execLoadRegs_withHidden x s p
  | _ => cases p <;> rfl

/-- The same, for an instruction that is known to have a next state. -/
theorem exec_withHidden_next {i : Instr} {s t : State} (h : exec i s = .next t) {p : Hidden} (hi : ¬ Uses i p) :
    exec i (s.withHidden p) = .next (t.withHidden p) := by
  rw [exec_withHidden hi, h]; rfl

/-- Settles O56: the list of effects for what is left alone, and noninterference for what is not read. -/
theorem theStackIsPrivateToCallAndReturn : Obligations.TheStackIsPrivateToCallAndReturn := by
  intro i s t h hcall hret
  have hi : ∀ sp stack, ¬ Uses i (.stack sp stack) := fun _ _ hu => hu.elim (fun ⟨nnn, e⟩ => hcall nnn e) hret
  have ⟨hsp, hstack⟩ : t.sp = s.sp ∧ t.stack = s.stack := by
    cases exec_effect h with
    | returned e => exact absurd e hret
    | called e => exact absurd e (not_exists.mpr hcall)
    | _ => exact ⟨rfl, rfl⟩
  exact ⟨hsp, hstack, fun sp stack => exec_withHidden_next h (hi sp stack)⟩

theorem exec_dt {i : Instr} {s t : State} (h : exec i s = .next t) (hne : t.dt ≠ s.dt) : ∃ x, i = .ldDtVx x := by
  cases exec_effect h with
  | wroteDt hi b => exact hi
  | _ => exact absurd rfl hne

theorem exec_st {i : Instr} {s t : State} (h : exec i s = .next t) (hi : ∀ x, i ≠ .ldStVx x) : t.st = s.st := by
  cases exec_effect h with
  | wroteSt e b => exact absurd e (not_exists.mpr hi)
  | _ => rfl

/-- Settles O58: the list of effects for the writers, noninterference for ST; Fx18 overwrites ST without reading it. -/
theorem noInstructionReadsTheSoundTimer : Obligations.NoInstructionReadsTheSoundTimer := by
  intro i s t h
  refine ⟨exec_dt h, fun hi => ⟨exec_st h hi, fun v => ?_⟩, ?_⟩
  · exact exec_withHidden_next h (p := .sound v) (not_exists.mpr hi)
  · rintro x rfl v
    exact h

end Sys2Proof.Machine
end

section
/-! Proofs of the statements of family 20_memory: the data accesses, the fetch and the code it reads back after a block
store, the canonical form of memory, and the font region, which no step writes. -/

namespace Sys2Proof.Machine

/-! ### Data accesses (R51, R52, R57) -/

/-- A data access after a data write: the byte written at its own address, and every other access as before. -/
theorem State.memRead_write (s : State) (a j : Nat) (b : Byte) :
    State.memRead { s with mem := s.mem.write s.font a b } j =
      if j = a ∧ j ≤ 0xFFF then .ok b else s.memRead j := by
  by_cases hj : j ≤ 0xFFF
  · rw [State.memRead_ok _ hj, State.memRead_ok _ hj, State.readMem, Memory.read_write]
    by_cases e : j = a
    · rw [if_pos e, if_pos ⟨e, hj⟩]
    · rw [if_neg e, if_neg fun h => e h.1]; rfl
  · rw [State.memRead_error _ (by omega), State.memRead_error _ (by omega), if_neg fun h => hj h.2]

/-- Settles O52: the laws of `memWrite` for its three ranges, and read after write (`State.memRead_write`). -/
theorem dataWritesAreReadBack : Obligations.DataWritesAreReadBack := by
  intro s a b
  refine ⟨fun h1 h2 => ⟨_, s.memWrite_ok b h1 h2, rfl, ?_, fun a' hne => ?_⟩, fun h => s.memWrite_font b h,
    fun h => ⟨s.memWrite_range b h, s.memRead_error h⟩⟩
  · rw [State.memRead_write, if_pos ⟨rfl, h2⟩]
  · rw [State.memRead_write, if_neg fun h => hne h.1]

/-! ### Fetch (R53, R54) -/

/-- The word at PC, as a number. -/
theorem State.fetch_toNat (s : State) (h : s.pc.toNat ≤ 0xFFE) :
    ∃ op, s.fetch = some op ∧
      op.toNat = 256 * (s.readMem s.pc.toNat).toNat + (s.readMem (s.pc.toNat + 1)).toNat :=
  ⟨_, s.fetch_ok h, Word.toNat_ofBytes ..⟩

/-- Settles O6: the fetch on both sides of its range check. -/
theorem fetchReadsTwoBytesBigEndian : Obligations.FetchReadsTwoBytesBigEndian :=
  fun s => ⟨s.fetch_toNat, s.fetch_none⟩

/-! ### Code that Fx55 has stored (R61, R109) -/

/-- The state after Fx55 has stored V0 to Vx. -/
def State.withStoredRegs (s : State) (x : Reg) : State :=
  { s with mem := s.mem.writeBytes s.font (s.dataAddr 0) ((upTo x).map s.readV) }

theorem execStoreRegs_ok (x : Reg) (s : State) (h1 : 0x050 ≤ s.i.toNat) (h2 : s.i.toNat + x.val ≤ 0xFFF) :
    execStoreRegs x s = .next (s.withStoredRegs x) := by
  have hend : s.dataAddr 0 + ((upTo x).map s.readV).length ≤ 0x1000 := by
    rw [List.length_map, length_upTo, State.dataAddr]; omega
  rw [execStoreRegs, s.storeBytes_ok (a := s.dataAddr 0) _ h1 hend, finish_ok, State.withStoredRegs]

/-- Each stored register is found at its own place in the block. -/
theorem State.readMem_withStoredRegs (s : State) {x k : Reg} (hk : k.val ≤ x.val) :
    (s.withStoredRegs x).readMem (s.dataAddr k.val) = s.readV k := by
  have hin : s.dataAddr 0 ≤ s.dataAddr k.val ∧
      s.dataAddr k.val < s.dataAddr 0 + ((upTo x).map s.readV).length := by
    rw [List.length_map, length_upTo, State.dataAddr, State.dataAddr]; omega
  have hoff : s.dataAddr k.val - s.dataAddr 0 = k.val := by rw [State.dataAddr, State.dataAddr]; omega
  rw [State.withStoredRegs, State.readMem_writeBytes, dif_pos hin]
  simp only [hoff, List.getElem_map, getElem_upTo]

/-- Settles O33: the bytes at PC and after it are the stored Vk and Vk+1, and a fetch joins them. -/
theorem storedBytesAreFetchedAsCode : Obligations.StoredBytesAreFetchedAsCode := by
  intro x k s h1 h2 hk
  refine ⟨s.withStoredRegs x, execStoreRegs_ok x s h1 h2, fun pc hpc => ?_⟩
  have hkx : k.val < x.val := hk
  have hnext : (k + 1).val = k.val + 1 := Fin.val_add_one_of_lt' (by omega)
  have hlo : pc.toNat + 1 = s.dataAddr (k + 1).val := by rw [hpc, hnext]; rfl
  have hle : pc.toNat ≤ 0xFFE := by rw [hpc, State.dataAddr]; omega
  obtain ⟨op, hop, hval⟩ := State.fetch_toNat { s.withStoredRegs x with pc := pc } hle
  refine ⟨op, hop, hval.trans ?_⟩
  show 256 * ((s.withStoredRegs x).readMem pc.toNat).toNat + ((s.withStoredRegs x).readMem (pc.toNat + 1)).toNat = _
  rw [hlo, hpc, s.readMem_withStoredRegs hkx.le, s.readMem_withStoredRegs (by rw [hnext]; exact hkx)]

/-! ### The canonical form of memory (R45) -/

/-- A canonical memory lists a byte only inside memory, and only one that differs from the reset content. -/
theorem Memory.bounds_of_find {font : Font} {m : Memory} {lo a : Nat} {b : Byte} (hm : m.wfAbove font lo = true)
    (h : m.find a = some b) : a < Config.memSize ∧ b ≠ unlisted font a := by
  induction m generalizing lo with
  | nil => cases h
  | cons c m ih =>
    obtain ⟨k, c⟩ := c
    obtain ⟨-, hk, hc, hm⟩ := (Memory.wfAbove_cons ..).mp hm
    rw [Memory.find] at h
    split at h
    next e => cases h; exact e ▸ ⟨hk, hc⟩
    next => exact ih hm h

/-- An address that reads otherwise than its reset content is listed. -/
theorem Memory.find_of_read {font : Font} {m : Memory} {a : Nat} {b : Byte} (h : m.read font a = b)
    (hb : b ≠ unlisted font a) : m.find a = some b := by
  rw [Memory.read] at h
  cases hf : m.find a with
  | none => rw [hf] at h; exact absurd h.symm hb
  | some c => rw [hf] at h; exact congrArg some h

/-- What a canonical memory lists, a memory that reads alike lists too. -/
theorem Memory.find_of_reads_alike {font : Font} {m m' : Memory} (hm : m.wf font = true)
    (hread : ∀ a, a < 0x1000 → m.read font a = m'.read font a) {a : Nat} {b : Byte} (h : m.find a = some b) :
    m'.find a = some b := by
  obtain ⟨ha, hb⟩ := Memory.bounds_of_find hm h
  have hmb : m.read font a = b := by rw [Memory.read, h]; rfl
  exact Memory.find_of_read ((hread a ha).symm.trans hmb) hb

theorem Memory.find_head (a : Nat) (b : Byte) (m : Memory) : Memory.find ((a, b) :: m) a = some b := if_pos rfl

/-- A canonical memory lists no address below its first cell. -/
theorem Memory.head_le_of_find {font : Font} {lo a j : Nat} {b c : Byte} {m : Memory}
    (hm : Memory.wfAbove font lo ((a, b) :: m) = true) (h : Memory.find ((a, b) :: m) j = some c) : a ≤ j := by
  obtain ⟨-, -, -, hm⟩ := (Memory.wfAbove_cons ..).mp hm
  by_contra hlt
  rw [Memory.find, if_neg (by omega), Memory.find_below hm (by omega)] at h
  cases h

/-- Canonical memories that list the same bytes are the same list, since their cells stand in address order. -/
theorem Memory.eq_of_find_eq {font : Font} {m m' : Memory} {lo : Nat} (hm : m.wfAbove font lo = true)
    (hm' : m'.wfAbove font lo = true) (h : ∀ a, m.find a = m'.find a) : m = m' := by
  induction m generalizing m' lo with
  | nil =>
    cases m' with
    | nil => rfl
    | cons c' m' => simpa [Memory.find] using h c'.1
  | cons c m ih =>
    cases m' with
    | nil => simpa [Memory.find] using h c.1
    | cons c' m' =>
      obtain ⟨a, b⟩ := c
      obtain ⟨a', b'⟩ := c'
      have hle : a ≤ a' := Memory.head_le_of_find hm ((h a').trans (Memory.find_head ..))
      have hge : a' ≤ a := Memory.head_le_of_find hm' ((h a).symm.trans (Memory.find_head ..))
      obtain rfl : a = a' := le_antisymm hle hge
      obtain rfl : b = b' := by simpa [Memory.find_head] using h a
      obtain ⟨-, -, -, hm⟩ := (Memory.wfAbove_cons ..).mp hm
      obtain ⟨-, -, -, hm'⟩ := (Memory.wfAbove_cons ..).mp hm'
      have htail : ∀ j, Memory.find m j = Memory.find m' j := fun j => by
        by_cases e : a = j
        · rw [Memory.find_below hm (by omega), Memory.find_below hm' (by omega)]
        · simpa [Memory.find, e] using h j
      rw [ih hm hm' htail]

/-- Settles O53: canonical memories that read alike list the same bytes, in the same order. -/
theorem memoriesThatReadAlikeAreEqual : Obligations.MemoriesThatReadAlikeAreEqual := by
  intro font m m' hm hm' hread
  refine Memory.eq_of_find_eq hm hm' fun a => Option.ext fun b => ⟨?_, ?_⟩
  · exact Memory.find_of_reads_alike hm hread
  · exact Memory.find_of_reads_alike hm' fun a ha => (hread a ha).symm

/-! ### The font region (R47) -/

/-- The font region reads the same in both states. -/
def SameFontRegion (s t : State) : Prop := ∀ a, a < 0x050 → t.readMem a = s.readMem a

/-- Bytes written above the font region leave it alone. -/
theorem sameFontRegion_writeBytes (s : State) {a : Nat} (bs : List Byte) (h : 0x050 ≤ a) :
    SameFontRegion s { s with mem := s.mem.writeBytes s.font a bs } := by
  intro j hj
  rw [State.readMem_writeBytes, dif_neg (by omega)]

theorem Effect.sameFontRegion {i : Instr} {s t : State} (he : Effect i s t) : SameFontRegion s t := by
  cases he with
  | stored hi a bs h1 h2 => exact sameFontRegion_writeBytes s bs h1
  | _ => exact fun _ _ => rfl

theorem executeStep_sameFontRegion {s t : State} (h : executeStep s = .next t) : SameFontRegion s t := by
  have hrun : s.fault = none := fault_none_of_performOp (op := .executeStep) trivial (performOp_executeStep s ▸ h)
  rcases executeStep_cases hrun h with ⟨-, rfl⟩ | ⟨op, -, -, rfl⟩ | ⟨op, i, -, -, he⟩
  · exact fun _ _ => rfl
  · exact fun _ _ => rfl
  · exact (exec_effect he).sameFontRegion

/-- `LoadProgram` writes from 0x200 on, or nothing (R148, R149). -/
theorem loadProgram_sameFontRegion (s : State) (bytes : List Byte) : SameFontRegion s (s.loadProgram bytes) := by
  rw [State.loadProgram]
  split
  · exact fun _ _ => rfl
  · exact sameFontRegion_writeBytes s bytes (by decide)

theorem performOp_sameFontRegion {op : HostOp} {s t : State} (h : performOp op s = .next t) : SameFontRegion s t := by
  have hrun : Changes op → s.fault = none := fun hc => fault_none_of_performOp hc h
  cases op with
  | executeStep => exact executeStep_sameFontRegion (performOp_executeStep s ▸ h)
  | timerTick =>
    cases (performOp_running (hrun trivial)).1.symm.trans h
    exact fun _ _ => rfl
  | setKeys k =>
    cases ((performOp_running (hrun trivial)).2.1 k).symm.trans h
    exact fun _ _ => rfl
  | loadProgram bytes =>
    cases ((performOp_running (hrun trivial)).2.2 bytes).symm.trans h
    exact loadProgram_sameFontRegion s bytes
  | readFramebuffer | readKeys | readFault =>
    cases h
    exact fun _ _ => rfl

/-- Settles O51: a step is `ExecuteStep` or the scheduled operation; only block stores and `LoadProgram` write memory,
both above the font region (`sameFontRegion_writeBytes`). -/
theorem noStepWritesTheFont : Obligations.NoStepWritesTheFont := by
  intro s t h
  cases hsch : s.schedule with
  | nil => exact executeStep_sameFontRegion (step_unscheduled hsch ▸ h)
  | cons op rest =>
    show SameFontRegion { s with schedule := rest } t
    exact performOp_sameFontRegion (step_scheduled hsch ▸ h)

end Sys2Proof.Machine
end

section
/-! Proofs of the statements of family 30_encoding: which words a row of R70 takes, said once for each mask as a fact
about the word's number, and which row the decoder takes. From these follow the two round trips, the disjointness of the
rows and the illegal words. -/

namespace Sys2Proof

/-! ### What each mask of R70 compares, as a number -/

section
variable {p m : Word} {f : Word → Instr} {op : Word}

/-- Every word is its four nibbles (R66). -/
theorem Word.eq_fmtXYN (op : Word) : op = fmtXYN (op.extractLsb' 12 4) op.x op.y (op.extractLsb' 0 4) := by
  apply BitVec.eq_of_toNat_eq
  simp only [fmtXYN_toNat, Word.x_val, Word.y_val, BitVec.extractLsb'_toNat, Nat.shiftRight_eq_div_pow]
  omega

theorem Word.toNat_and_class (op : Word) : (op &&& 0xF000).toNat = 0x1000 * (op.toNat / 0x1000) := by
  rw [op.eq_fmtXYN, fmtXYN_mask, fmtNNN_toNat, fmtXYN_toNat]
  simp only [BitVec.ofNat_eq_ofNat, BitVec.toNat_ofNat]
  omega

theorem Word.toNat_and_nibble (op : Word) :
    (op &&& 0xF00F).toNat = 0x1000 * (op.toNat / 0x1000) + op.toNat % 16 := by
  rw [op.eq_fmtXYN, fmtXYN_maskNibble, fmtXYN_toNat, fmtXYN_toNat]
  simp only [Fin.val_zero]
  omega

theorem Word.toNat_and_byte (op : Word) :
    (op &&& 0xF0FF).toNat = 0x1000 * (op.toNat / 0x1000) + op.toNat % 256 := by
  rw [op.eq_fmtXYN, fmtXYN_eq, fmtXNN_maskByte, fmtXNN_toNat, fmtXNN_toNat]
  simp only [Fin.val_zero]
  omega

theorem accepts_iff : Row.accepts ⟨p, m, f⟩ op = true ↔ op &&& m = p := beq_iff_eq

/-- A row with no operand takes its own word alone. -/
theorem accepts_word_iff : Row.accepts ⟨p, 0xFFFF, f⟩ op = true ↔ op.toNat = p.toNat := by
  rw [accepts_iff, BitVec.toNat_inj]
  exact iff_of_eq (congrArg (· = p) BitVec.and_allOnes)

/-- A row with nothing fixed but the class takes the words of its class. -/
theorem accepts_class_iff (hp : p.toNat % 0x1000 = 0) :
    Row.accepts ⟨p, 0xF000, f⟩ op = true ↔ op.toNat / 0x1000 = p.toNat / 0x1000 := by
  rw [accepts_iff, ← BitVec.toNat_inj, Word.toNat_and_class]
  omega

/-- A row with a function nibble takes the words of its class with that nibble. -/
theorem accepts_nibble_iff (hp : p.toNat / 16 % 0x100 = 0) :
    Row.accepts ⟨p, 0xF00F, f⟩ op = true ↔
      op.toNat / 0x1000 = p.toNat / 0x1000 ∧ op.toNat % 16 = p.toNat % 16 := by
  rw [accepts_iff, ← BitVec.toNat_inj, Word.toNat_and_nibble]
  omega

/-- A row with a function byte takes the words of its class with that byte. -/
theorem accepts_byte_iff (hp : p.toNat / 0x100 % 16 = 0) :
    Row.accepts ⟨p, 0xF0FF, f⟩ op = true ↔
      op.toNat / 0x1000 = p.toNat / 0x1000 ∧ op.toNat % 256 = p.toNat % 256 := by
  rw [accepts_iff, ← BitVec.toNat_inj, Word.toNat_and_byte]
  omega

end

/-! ### Which row the decoder takes (R69, R77) -/

/-- Two rows that take one word agree where both their masks look. -/
theorem Row.patterns_agree {r q : Row} {op : Word} (hr : r.accepts op = true) (hq : q.accepts op = true) :
    r.pattern &&& q.mask = q.pattern &&& r.mask := by
  have hr' : op &&& r.mask = r.pattern := accepts_iff.mp hr
  have hq' : op &&& q.mask = q.pattern := accepts_iff.mp hq
  rw [← hr', ← hq', BitVec.and_assoc, BitVec.and_assoc, BitVec.and_comm r.mask]

/-- Any two rows of R70 differ in a bit that both their masks look at. -/
theorem opcodeTable_patterns_differ :
    opcodeTable.Pairwise fun r q => r.pattern &&& q.mask ≠ q.pattern &&& r.mask := by
  decide

theorem opcodeTable_index_unique {op : Word} {j k : Nat} {r q : Row} (hj : opcodeTable[j]? = some r)
    (hk : opcodeTable[k]? = some q) (hr : r.accepts op = true) (hq : q.accepts op = true) : j = k := by
  obtain ⟨hj', rfl⟩ := List.getElem?_eq_some_iff.mp hj
  obtain ⟨hk', rfl⟩ := List.getElem?_eq_some_iff.mp hk
  have hdiffer := List.pairwise_iff_getElem.mp opcodeTable_patterns_differ
  rcases Nat.lt_trichotomy j k with hlt | heq | hgt
  · exact absurd (Row.patterns_agree hr hq) (hdiffer j k hj' hk' hlt)
  · exact heq
  · exact absurd (Row.patterns_agree hq hr) (hdiffer k j hk' hj' hgt)

/-- What the decoder reads was built by a row that takes the word. -/
theorem accepts_of_decodeWord {op : Word} {i : Instr} (h : decodeWord op = .ok i) :
    ∃ r ∈ opcodeTable, r.accepts op = true ∧ r.build op = i := by
  unfold decodeWord at h
  split at h
  · rename_i r hfind
    cases h
    exact ⟨r, List.mem_of_find?_eq_some hfind, List.find?_some (p := fun r : Row => r.accepts op) hfind, rfl⟩
  · cases h

/-- The decoder takes the row that takes the word: another one would have the same place in the table. -/
theorem decodeWord_of_accepts {op : Word} {r : Row} (hmem : r ∈ opcodeTable) (hr : r.accepts op = true) :
    decodeWord op = .ok (r.build op) := by
  cases h : decodeWord op with
  | error e =>
    unfold decodeWord at h
    split at h
    · cases h
    · rename_i hfind
      exact absurd hr (List.find?_eq_none.mp hfind r hmem)
  | ok i =>
    obtain ⟨q, hq, hqop, rfl⟩ := accepts_of_decodeWord h
    obtain ⟨j, hj⟩ := List.mem_iff_getElem?.mp hq
    obtain ⟨k, hk⟩ := List.mem_iff_getElem?.mp hmem
    have hjk : j = k := opcodeTable_index_unique hj hk hqop hr
    have hqr : q = r := Option.some.inj (by rw [← hj, hjk, hk])
    rw [hqr]

open Laws in
/-- Some row takes each instruction's word and builds the instruction back from it. -/
theorem rowTakesWord : ∀ i : Instr, RowTakesWord.Statement i
  | .nop => RowTakesWord.nop
  | .cls => RowTakesWord.cls
  | .ret => RowTakesWord.ret
  | .jp nnn => RowTakesWord.jp nnn
  | .call nnn => RowTakesWord.call nnn
  | .seImm x nn => RowTakesWord.seImm x nn
  | .sneImm x nn => RowTakesWord.sneImm x nn
  | .seReg x y => RowTakesWord.seReg x y
  | .ldImm x nn => RowTakesWord.ldImm x nn
  | .addImm x nn => RowTakesWord.addImm x nn
  | .ldReg x y => RowTakesWord.ldReg x y
  | .orReg x y => RowTakesWord.orReg x y
  | .andReg x y => RowTakesWord.andReg x y
  | .xorReg x y => RowTakesWord.xorReg x y
  | .addReg x y => RowTakesWord.addReg x y
  | .subReg x y => RowTakesWord.subReg x y
  | .shr x y => RowTakesWord.shr x y
  | .subnReg x y => RowTakesWord.subnReg x y
  | .shl x y => RowTakesWord.shl x y
  | .sneReg x y => RowTakesWord.sneReg x y
  | .ldI nnn => RowTakesWord.ldI nnn
  | .jpV0 nnn => RowTakesWord.jpV0 nnn
  | .rnd x nn => RowTakesWord.rnd x nn
  | .drw x y n => RowTakesWord.drw x y n
  | .skp x => RowTakesWord.skp x
  | .sknp x => RowTakesWord.sknp x
  | .ldVxDt x => RowTakesWord.ldVxDt x
  | .ldVxK x => RowTakesWord.ldVxK x
  | .ldDtVx x => RowTakesWord.ldDtVx x
  | .ldStVx x => RowTakesWord.ldStVx x
  | .addI x => RowTakesWord.addI x
  | .ldF x => RowTakesWord.ldF x
  | .ldB x => RowTakesWord.ldB x
  | .storeRegs x => RowTakesWord.storeRegs x
  | .loadRegs x => RowTakesWord.loadRegs x

/-! ### Which words the rows of each part of the table take -/

section
variable {op : Word}

theorem tableControl_takes_iff : (∃ r ∈ tableControl, r.accepts op = true) ↔
    op.toNat ∈ [0x0000, 0x00E0, 0x00EE] ∨ op.toNat / 0x1000 ∈ [1, 2, 3, 4, 5, 6, 7] := by
  simp (disch := decide) only [tableControl, List.exists_mem_cons_iff, accepts_word_iff, accepts_class_iff]
  simp [or_assoc]

theorem tableArithmetic_takes_iff : (∃ r ∈ tableArithmetic, r.accepts op = true) ↔
    op.toNat / 0x1000 = 8 ∧ op.toNat % 16 ∈ [0, 1, 2, 3, 4, 5, 6, 7, 0xE] := by
  simp (disch := decide) only [tableArithmetic, List.exists_mem_cons_iff, accepts_nibble_iff]
  simp [← and_or_left]

theorem tableMiddle_takes_iff : (∃ r ∈ tableMiddle, r.accepts op = true) ↔
    op.toNat / 0x1000 ∈ [9, 0xA, 0xB, 0xC, 0xD] ∨ op.toNat / 0x1000 = 0xE ∧ op.toNat % 256 ∈ [0x9E, 0xA1] := by
  simp (disch := decide) only [tableMiddle, List.exists_mem_cons_iff, accepts_class_iff, accepts_byte_iff]
  simp [← and_or_left, or_assoc]

theorem tableMisc_takes_iff : (∃ r ∈ tableMisc, r.accepts op = true) ↔
    op.toNat / 0x1000 = 0xF ∧
      op.toNat % 256 ∈ [0x07, 0x0A, 0x15, 0x18, 0x1E, 0x29, 0x33, 0x55, 0x65] := by
  simp (disch := decide) only [tableMisc, List.exists_mem_cons_iff, accepts_byte_iff]
  simp [← and_or_left]

theorem opcodeTable_takes_iff : (∃ r ∈ opcodeTable, r.accepts op = true) ↔
    (∃ r ∈ tableControl, r.accepts op = true) ∨ (∃ r ∈ tableArithmetic, r.accepts op = true) ∨
      (∃ r ∈ tableMiddle, r.accepts op = true) ∨ ∃ r ∈ tableMisc, r.accepts op = true := by
  simp only [opcodeTable, List.mem_append, or_and_right, exists_or, or_assoc]

end

/-! ### What a row builds encodes to the word again (R70, R71) -/

/-- The number of a word whose ignored nibble, in classes 5 and 9, is written 0 (R71, R75). -/
def Word.canonical (op : Word) : Nat :=
  if op.toNat / 0x1000 = 5 ∨ op.toNat / 0x1000 = 9 then op.toNat / 16 * 16 else op.toNat

/-- From each word it takes, the row builds a well-formed instruction that encodes to the word's canonical form. -/
def Row.Rebuilds (r : Row) : Prop :=
  ∀ op, r.accepts op = true → (r.build op).wf = true ∧ (encode (r.build op)).toNat = op.canonical

section
variable {p : Word} {c : BitVec 4}

/-- In every class but 5 and 9 each nibble counts. -/
theorem Word.canonical_eq {op : Word} (hc : c.toNat ≠ 5 ∧ c.toNat ≠ 9) (h : op.toNat / 0x1000 = c.toNat) :
    op.canonical = op.toNat := if_neg (by omega)

theorem Row.rebuilds_word {i : Instr} (hi : i.wf = true ∧ encode i = p) (hp : p.toNat < 0x1000 := by decide) :
    Row.Rebuilds ⟨p, 0xFFFF, fun _ => i⟩ := by
  intro op h
  have hop : op.toNat = p.toNat := accepts_word_iff.mp h
  refine ⟨hi.1, (congrArg BitVec.toNat hi.2).trans ?_⟩
  rw [Word.canonical, if_neg (by omega), hop]

theorem Row.rebuilds_nnn {g : Addr → Instr} (hg : ∀ nnn, (g nnn).wf = true ∧ encode (g nnn) = fmtNNN c nnn)
    (hp : p.toNat = 0x1000 * c.toNat := by rfl) (hc : c.toNat ≠ 5 ∧ c.toNat ≠ 9 := by decide) :
    Row.Rebuilds ⟨p, 0xF000, fun op => g op.nnn⟩ := by
  intro op h
  obtain ⟨hwf, henc⟩ := hg op.nnn
  have hclass := (accepts_class_iff (by omega)).mp h
  refine ⟨hwf, (congrArg BitVec.toNat henc).trans ?_⟩
  rw [fmtNNN_toNat, Word.nnn_toNat, Word.canonical_eq hc (by omega)]
  omega

theorem Row.rebuilds_xnn {g : Reg → Byte → Instr}
    (hg : ∀ x nn, (g x nn).wf = true ∧ encode (g x nn) = fmtXNN c x nn)
    (hp : p.toNat = 0x1000 * c.toNat := by rfl) (hc : c.toNat ≠ 5 ∧ c.toNat ≠ 9 := by decide) :
    Row.Rebuilds ⟨p, 0xF000, fun op => g op.x op.nn⟩ := by
  intro op h
  obtain ⟨hwf, henc⟩ := hg op.x op.nn
  have hclass := (accepts_class_iff (by omega)).mp h
  refine ⟨hwf, (congrArg BitVec.toNat henc).trans ?_⟩
  rw [fmtXNN_toNat, Word.x_val, Word.nn_toNat, Word.canonical_eq hc (by omega)]
  omega

theorem Row.rebuilds_xyn {g : Reg → Reg → Nat → Instr}
    (hg : ∀ x y n, n < 16 → (g x y n).wf = true ∧ encode (g x y n) = fmtXYN c x y (BitVec.ofNat 4 n))
    (hp : p.toNat = 0x1000 * c.toNat := by rfl) (hc : c.toNat ≠ 5 ∧ c.toNat ≠ 9 := by decide) :
    Row.Rebuilds ⟨p, 0xF000, fun op => g op.x op.y op.n⟩ := by
  intro op h
  obtain ⟨hwf, henc⟩ := hg op.x op.y op.n (by rw [Word.n_eq]; omega)
  have hclass := (accepts_class_iff (by omega)).mp h
  refine ⟨hwf, (congrArg BitVec.toNat henc).trans ?_⟩
  rw [fmtXYN_toNat, Word.x_val, Word.y_val, Word.n_eq, BitVec.toNat_ofNat, Word.canonical_eq hc (by omega)]
  omega

/-- Classes 5 and 9 ignore the low nibble, and are encoded with 0 there. -/
theorem Row.rebuilds_xy_ignored {g : Reg → Reg → Instr}
    (hg : ∀ x y, (g x y).wf = true ∧ encode (g x y) = fmtXYN c x y 0)
    (hp : p.toNat = 0x1000 * c.toNat := by rfl) (hc : c.toNat = 5 ∨ c.toNat = 9 := by decide) :
    Row.Rebuilds ⟨p, 0xF000, fun op => g op.x op.y⟩ := by
  intro op h
  obtain ⟨hwf, henc⟩ := hg op.x op.y
  have hclass := (accepts_class_iff (by omega)).mp h
  have hzero : (0 : BitVec 4).toNat = 0 := rfl
  refine ⟨hwf, (congrArg BitVec.toNat henc).trans ?_⟩
  rw [fmtXYN_toNat, Word.x_val, Word.y_val, hzero, Word.canonical, if_pos (by omega)]
  omega

theorem Row.rebuilds_xy {g : Reg → Reg → Instr} {n : BitVec 4}
    (hg : ∀ x y, (g x y).wf = true ∧ encode (g x y) = fmtXYN c x y n)
    (hp : p.toNat = 0x1000 * c.toNat + n.toNat := by rfl) (hc : c.toNat ≠ 5 ∧ c.toNat ≠ 9 := by decide) :
    Row.Rebuilds ⟨p, 0xF00F, fun op => g op.x op.y⟩ := by
  intro op h
  obtain ⟨hwf, henc⟩ := hg op.x op.y
  obtain ⟨hclass, hnibble⟩ := (accepts_nibble_iff (by omega)).mp h
  refine ⟨hwf, (congrArg BitVec.toNat henc).trans ?_⟩
  rw [fmtXYN_toNat, Word.x_val, Word.y_val, Word.canonical_eq hc (by omega)]
  omega

theorem Row.rebuilds_x {g : Reg → Instr} {b : Byte} (hg : ∀ x, (g x).wf = true ∧ encode (g x) = fmtXNN c x b)
    (hp : p.toNat = 0x1000 * c.toNat + b.toNat := by rfl) (hc : c.toNat ≠ 5 ∧ c.toNat ≠ 9 := by decide) :
    Row.Rebuilds ⟨p, 0xF0FF, fun op => g op.x⟩ := by
  intro op h
  obtain ⟨hwf, henc⟩ := hg op.x
  obtain ⟨hclass, hbyte⟩ := (accepts_byte_iff (by omega)).mp h
  refine ⟨hwf, (congrArg BitVec.toNat henc).trans ?_⟩
  rw [fmtXNN_toNat, Word.x_val, Word.canonical_eq hc (by omega)]
  omega

end

theorem tableControl_rebuilds : ∀ r ∈ tableControl, r.Rebuilds := by
  simp only [tableControl, List.forall_mem_cons]
  refine ⟨?nop, ?cls, ?ret, ?jp, ?call, ?seImm, ?sneImm, ?seReg, ?ldImm, ?addImm, nofun⟩
  case nop | cls | ret => exact Row.rebuilds_word ⟨rfl, rfl⟩
  case jp | call => exact Row.rebuilds_nnn fun _ => ⟨rfl, rfl⟩
  case seReg => exact Row.rebuilds_xy_ignored fun _ _ => ⟨rfl, rfl⟩
  case seImm | sneImm | ldImm | addImm => exact Row.rebuilds_xnn fun _ _ => ⟨rfl, rfl⟩

theorem tableArithmetic_rebuilds : ∀ r ∈ tableArithmetic, r.Rebuilds := by
  simp only [tableArithmetic, List.forall_mem_cons]
  refine ⟨?_, ?_, ?_, ?_, ?_, ?_, ?_, ?_, ?_, nofun⟩
  all_goals exact Row.rebuilds_xy fun _ _ => ⟨rfl, rfl⟩

theorem tableMiddle_rebuilds : ∀ r ∈ tableMiddle, r.Rebuilds := by
  simp only [tableMiddle, List.forall_mem_cons]
  refine ⟨?sneReg, ?ldI, ?jpV0, ?rnd, ?drw, ?skp, ?sknp, nofun⟩
  case sneReg => exact Row.rebuilds_xy_ignored fun _ _ => ⟨rfl, rfl⟩
  case ldI | jpV0 => exact Row.rebuilds_nnn fun _ => ⟨rfl, rfl⟩
  case rnd => exact Row.rebuilds_xnn fun _ _ => ⟨rfl, rfl⟩
  case drw => exact Row.rebuilds_xyn fun _ _ _ hn => ⟨decide_eq_true hn, rfl⟩
  case skp | sknp => exact Row.rebuilds_x fun _ => ⟨rfl, rfl⟩

theorem tableMisc_rebuilds : ∀ r ∈ tableMisc, r.Rebuilds := by
  simp only [tableMisc, List.forall_mem_cons]
  refine ⟨?_, ?_, ?_, ?_, ?_, ?_, ?_, ?_, ?_, nofun⟩
  all_goals exact Row.rebuilds_x fun _ => ⟨rfl, rfl⟩

theorem opcodeTable_rebuilds : ∀ r ∈ opcodeTable, r.Rebuilds := by
  simp only [opcodeTable, List.forall_mem_append]
  exact ⟨⟨⟨tableControl_rebuilds, tableArithmetic_rebuilds⟩, tableMiddle_rebuilds⟩, tableMisc_rebuilds⟩

end Sys2Proof

namespace Sys2Proof.Machine

/-! ### The round trips and the rows (R69, R70, R77) -/

/-- Settles O2: the row that takes the instruction's word (`rowTakesWord`) is the one the decoder takes. -/
theorem decodeOfEncodeIsTheInstruction : Obligations.DecodeOfEncodeIsTheInstruction := by
  intro i hwf
  obtain ⟨k, r, hk, hr, hbuild⟩ := rowTakesWord i hwf
  rw [decodeWord_of_accepts (List.mem_of_getElem? hk) hr, hbuild]

/-- Settles O3: the decoder took some row, and every row of the table rebuilds the words it takes. -/
theorem encodeOfDecodeIsTheWord : Obligations.EncodeOfDecodeIsTheWord := by
  intro op i h
  obtain ⟨r, hmem, hr, rfl⟩ := accepts_of_decodeWord h
  exact opcodeTable_rebuilds r hmem op hr

/-- Settles O4: two rows that take one word stand at one place (`opcodeTable_index_unique`). -/
theorem opcodeRowsAreDisjoint : Obligations.OpcodeRowsAreDisjoint :=
  ⟨rfl, fun _ _ _ _ _ => opcodeTable_index_unique, fun _ _ => decodeWord_of_accepts⟩

/-! ### The illegal words (R72) -/

theorem decodeWord_illegal_iff {op : Word} :
    decodeWord op = .error (.illegalOpcode op) ↔ ¬ ∃ r ∈ opcodeTable, r.accepts op = true := by
  constructor
  · rintro h ⟨r, hmem, hr⟩
    cases h.symm.trans (decodeWord_of_accepts hmem hr)
  · intro hnone
    cases h : decodeWord op with
    | error e => rw [decodeWord_error h]
    | ok i =>
      obtain ⟨r, hmem, hr, -⟩ := accepts_of_decodeWord h
      exact absurd ⟨r, hmem, hr⟩ hnone

/-- Settles O5: class by class, the words that no part of the table takes. -/
theorem illegalWordsAreExactlyTheFourClasses : Obligations.IllegalWordsAreExactlyTheFourClasses := by
  intro op
  have hcontrol : op.toNat ∈ [0x0000, 0x00E0, 0x00EE] → op.toNat / 0x1000 = 0 := by
    intro h
    simp only [List.mem_cons, List.not_mem_nil, or_false] at h
    omega
  have hnibble : op.toNat % 16 ∈ [0x8, 0x9, 0xA, 0xB, 0xC, 0xD, 0xF] ↔
      op.toNat % 16 ∉ [0, 1, 2, 3, 4, 5, 6, 7, 0xE] := by
    simp only [List.mem_cons, List.not_mem_nil, or_false]
    omega
  have hclass : op.toNat / 0x1000 < 16 := by omega
  rw [decodeWord_illegal_iff, opcodeTable_takes_iff, tableControl_takes_iff, tableArithmetic_takes_iff,
    tableMiddle_takes_iff, tableMisc_takes_iff, hnibble]
  generalize op.toNat / 0x1000 = c at hcontrol hclass ⊢
  interval_cases c <;> simp_all

/-! ### Words written out (R66) -/

/-- A word given by its number is read as the instruction that encodes to that number. -/
theorem reads_of_encode {i : Instr} {word : Nat} (hwf : i.wf = true) (h : (encode i).toNat = word) : Reads word i := by
  rw [Reads, ← h, BitVec.ofNat_toNat, BitVec.setWidth_eq]
  exact decodeOfEncodeIsTheInstruction i hwf

/-- Settles O1: each word is its instruction's encoding (`reads_of_encode`), and 0x0123 is illegal (O5). -/
theorem writtenOutWordsDecode : Obligations.WrittenOutWordsDecode := by
  refine ⟨?_, ?_, ?_, ?_, ?_, ?_, ?_, ?_, ?_, ?_, ?illegal⟩
  case illegal => exact (illegalWordsAreExactlyTheFourClasses 0x0123).mpr (.inl (by decide))
  all_goals exact reads_of_encode rfl rfl

/-! ### The step (R68) -/

/-- Settles O7: the four cases of `executeStep`, which an unscheduled step is. -/
theorem stepRunsTheDecodedInstruction : Obligations.StepRunsTheDecodedInstruction := by
  intro s hs
  rw [step_unscheduled hs]
  exact ⟨executeStep_halted, fun hrun => ⟨fun _ _ => executeStep_decoded hrun,
    fun _ _ => executeStep_illegal hrun, executeStep_unfetched hrun⟩⟩

end Sys2Proof.Machine
end

section
/-! Proofs of the statements of family 40_control_flow: what a return, a call and the two pairs of comparing skips do,
each said once, and the words they are read from. -/

namespace Sys2Proof.Machine

/-! ### Words and faults, by the word's number -/

/-- A row of class `c` that ignores the low nibble reads the word of every low nibble (R71). -/
theorem reads_of_ignoredNibble {c : BitVec 4} {p : Word} {g : Reg → Reg → Instr}
    (hmem : ⟨p, 0xF000, fun op => g op.x op.y⟩ ∈ opcodeTable) (hp : fmtNNN c 0 = p) (x y : Reg) {n : Nat}
    (hn : n < 16) : Reads (0x1000 * c.toNat + 0x100 * x.val + 0x10 * y.val + n) (g x y) := by
  have hword : BitVec.ofNat 16 (0x1000 * c.toNat + 0x100 * x.val + 0x10 * y.val + n) =
      fmtXYN c x y (BitVec.ofNat 4 n) := by
    apply BitVec.eq_of_toNat_eq
    rw [fmtXYN_toNat, BitVec.toNat_ofNat, BitVec.toNat_ofNat]
    omega
  rw [Reads, hword, decodeWord_of_accepts hmem (accepts_fmtXYN x y _ hp)]
  simp only [fmtXYN_x, fmtXYN_y]

/-- An instruction that takes a fault raises it, with the word of its encoding in the record (R124, R125). -/
theorem raises_of_raiseFault {i : Instr} {word : Nat} {c : Fault} {info : Option Nat} {s : State}
    (hword : (encode i).toNat = word) (h : exec i s = raiseFault c i info s) : Raises i word c info s := by
  rw [Raises, h, ← hword, BitVec.ofNat_toNat, BitVec.setWidth_eq]
  rfl

/-! ### The stack instructions (R81, R83) -/

/-- With `j + 1` entries in use, a return takes entry `j`. -/
theorem execRet_pops {s : State} {j : Fin 16} (h : s.sp.val = j.val + 1) :
    execRet s = .next { s with pc := s.stack.get j, sp := j.castSucc } := by
  have hj : j = ⟨s.sp.val - 1, by omega⟩ := Fin.ext (by simp [h])
  rw [hj, execRet, s.pop_ok (by omega)]
  rfl

/-- With `j` entries in use, a call writes the pre-advanced PC to entry `j`. -/
theorem execCall_pushes (nnn : Addr) {s : State} {j : Fin 16} (h : s.sp.val = j.val) :
    execCall nnn s =
      .next { s with pc := zextAddr nnn, sp := j.succ, stack := s.stack.set j.val s.pc j.isLt } := by
  have hj : j = ⟨s.sp.val, by omega⟩ := Fin.ext h.symm
  rw [hj, execCall, s.push_ok _ (by omega)]
  rfl

/-! ### The comparing skips (R84 to R87) -/

/-- Two instructions, of which one skips where `a` equals `b` and the other where they differ. -/
theorem compareSkips {se sne : Instr} {a b : Byte} {s : State} (hse : exec se s = .next (s.skipIf (a == b)))
    (hsne : exec sne s = .next (s.skipIf (a != b))) :
    (a = b → exec se s = .next { s with pc := s.pc + 2 } ∧ exec sne s = .next s) ∧
      (a ≠ b → exec se s = .next s ∧ exec sne s = .next { s with pc := s.pc + 2 }) := by
  rw [hse, hsne]
  refine ⟨fun heq => ?_, fun hne => ?_⟩
  · rw [beq_iff_eq.mpr heq, bne_eq_false_iff_eq.mpr heq]
    exact ⟨rfl, rfl⟩
  · rw [beq_eq_false_iff_ne.mpr hne, bne_iff_ne.mpr hne]
    exact ⟨rfl, rfl⟩

/-! ### The statements -/

/-- Settles O13: a word read as the no-op is the no-op's encoding again (O3), so it is 0; a word of the classes 5 and 9,
whose low nibble O3 leaves open, is too large to be read so. -/
theorem nopChangesNothing : Obligations.NopChangesNothing := by
  refine ⟨reads_of_encode rfl rfl, fun op h => ?_, fun _ => rfl⟩
  obtain ⟨-, henc⟩ := encodeOfDecodeIsTheWord op _ h
  have hzero : (encode .nop).toNat = 0 := rfl
  apply BitVec.eq_of_toNat_eq
  split at henc
  · omega
  · exact henc.symm

/-- Settles O14: the pop of `execRet_pops`, and the fault of an empty stack. -/
theorem returnPopsIntoPc : Obligations.ReturnPopsIntoPc := by
  refine ⟨reads_of_encode rfl rfl, fun s => ⟨fun j h => ⟨_, execRet_pops h, rfl, rfl, rfl⟩, fun h => ?_⟩⟩
  have hfault : execRet s = raiseFault .stackUnderflow .ret none s := by rw [execRet, s.pop_empty h]
  exact raises_of_raiseFault rfl hfault

/-- Settles O15: the meaning of 1nnn is `State.jump` to the zero-extended `nnn`. -/
theorem jumpSetsPc : Obligations.JumpSetsPc :=
  fun nnn => ⟨reads_of_encode rfl (fmtNNN_toNat 0x1 nnn), fun _ => ⟨_, rfl, rfl, zextAddr_toNat nnn⟩⟩

/-- Settles O16: the push of `execCall_pushes`, and the fault of a full stack. -/
theorem callPushesTheReturnAddress : Obligations.CallPushesTheReturnAddress := by
  intro nnn
  have hword : (encode (.call nnn)).toNat = 0x2000 + nnn.toNat := fmtNNN_toNat 0x2 nnn
  refine ⟨reads_of_encode rfl hword, fun s => ⟨fun j h => ?push, fun h => ?full⟩⟩
  case push =>
    refine ⟨_, execCall_pushes nnn h, rfl, zextAddr_toNat nnn, rfl, ?_, fun k hk => ?_⟩
    · exact Vector.getElem_set_self _
    · exact Vector.getElem_set_ne j.isLt k.isLt (Fin.val_ne_of_ne hk.symm)
  case full =>
    have hfault : execCall nnn s = raiseFault .stackOverflow (.call nnn) none s := by rw [execCall, s.push_full _ h]
    exact raises_of_raiseFault hword hfault

/-- Settles O17: 3xnn and 4xnn are a pair of skips that compare Vx and nn (`compareSkips`). -/
theorem immediateSkipsComparePlainBytes : Obligations.ImmediateSkipsComparePlainBytes :=
  fun x nn => ⟨reads_of_encode rfl (fmtXNN_toNat 0x3 x nn), reads_of_encode rfl (fmtXNN_toNat 0x4 x nn),
    fun _ => compareSkips rfl rfl⟩

/-- Settles O18: rows 8 and 20 of R70 ignore the low nibble, and the pair of skips compares Vx and Vy
(`compareSkips`). -/
theorem registerSkipsIgnoreTheLowNibble : Obligations.RegisterSkipsIgnoreTheLowNibble := by
  intro x y
  have hse : ⟨0x5000, 0xF000, fun op => .seReg op.x op.y⟩ ∈ opcodeTable := List.mem_of_getElem? (i := 7) rfl
  have hsne : ⟨0x9000, 0xF000, fun op => .sneReg op.x op.y⟩ ∈ opcodeTable := List.mem_of_getElem? (i := 19) rfl
  refine ⟨fun n hn => ⟨?_, ?_⟩, fun _ => compareSkips rfl rfl⟩
  · exact reads_of_ignoredNibble (c := 0x5) hse rfl x y hn
  · exact reads_of_ignoredNibble (c := 0x9) hsne rfl x y hn

/-- Settles O19: the sum of a byte and a 12-bit address stays below 2^16. -/
theorem jumpPlusV0IsExact : Obligations.JumpPlusV0IsExact := by
  refine fun nnn => ⟨reads_of_encode rfl (fmtNNN_toNat 0xB nnn), fun s => ⟨_, rfl, rfl, ?_⟩⟩
  show (zextByte (s.readV 0) + zextAddr nnn).toNat = _
  rw [BitVec.toNat_add, zextByte_toNat, zextAddr_toNat]
  omega

/-- Settles O20: the call writes the entry at SP (`execCall_pushes`), and the return takes that entry
(`execRet_pops`). -/
theorem returnUndoesCall : Obligations.ReturnUndoesCall := by
  intro nnn s hs
  refine ⟨_, execCall_pushes nnn (j := ⟨s.sp.val, hs⟩) rfl, fun u hsp hstack => ?_⟩
  have hret := execRet_pops (s := u) (j := ⟨s.sp.val, hs⟩) (congrArg Fin.val hsp)
  have hentry : u.stack.get ⟨s.sp.val, hs⟩ = s.pc := by
    rw [hstack]
    exact Vector.getElem_set_self _
  rw [hentry] at hret
  exact hret

end Sys2Proof.Machine
end

section
/-! Proofs of the statements of family 41_arithmetic: what one register write, a write with the flag after it, and a
write with the flag before it leave in the state, each said once (R10, D16), and the values of the flags. -/

namespace Sys2Proof.Machine

/-! ### The words of class 8 -/

/-- The word of a class 8 instruction, by the number of its row's pattern `0x8000 + n`. -/
theorem reads_of_class8 {i : Instr} {x y : Reg} (n : BitVec 4) (hwf : i.wf = true) (h : encode i = fmtXYN 0x8 x y n) :
    Reads (0x8000 + n.toNat + 0x100 * x.val + 0x10 * y.val) i := by
  refine reads_of_encode hwf ?_
  rw [h, fmtXYN_toNat, show (0x8 : BitVec 4).toNat = 8 from rfl]
  omega

/-! ### The values of results and flags -/

theorem carryFlag_toNat (a b : Byte) : (carryFlag a b).toNat = if a.toNat + b.toNat > 255 then 1 else 0 := by
  rw [carryFlag]
  split <;> rfl

theorem noBorrowFlag_toNat (a b : Byte) : (noBorrowFlag a b).toNat = if a.toNat ≥ b.toNat then 1 else 0 := by
  rw [noBorrowFlag]
  split <;> rfl

theorem lowBitFlag_toNat (a : Byte) : (lowBitFlag a).toNat = a.toNat % 2 := by
  rw [lowBitFlag, BitVec.toNat_and]
  exact Nat.and_one_is_mod _

theorem highBitFlag_toNat (a : Byte) : (highBitFlag a).toNat = a.toNat / 128 := by
  rw [highBitFlag, BitVec.toNat_and, BitVec.toNat_ushiftRight, Nat.shiftRight_eq_div_pow]
  refine (Nat.and_one_is_mod _).trans ?_
  omega

/-- A byte difference is the difference of integers modulo 256. -/
theorem toNat_sub_byte_eq_emod (a b : Byte) : ((a - b).toNat : Int) = ((a.toNat : Int) - (b.toNat : Int)) % 256 := by
  rw [BitVec.toNat_sub]
  omega

theorem toNat_shiftRight_one (a : Byte) : (a >>> 1).toNat = a.toNat / 2 := by
  rw [BitVec.toNat_ushiftRight, Nat.shiftRight_eq_div_pow, Nat.pow_one]

theorem toNat_shiftLeft_one (a : Byte) : (a <<< 1).toNat = 2 * a.toNat % 256 := by
  rw [BitVec.toNat_shiftLeft, Nat.shiftLeft_eq, Nat.pow_one, Nat.mul_comm]

/-! ### The three shapes of a register instruction -/

section Shapes

variable {i : Instr} {s : State} {x : Reg} {b c : Byte}

/-- An instruction that writes Vx and no flag (R90 to R95). -/
theorem exists_of_writeV (h : exec i s = .next (s.writeV x b)) :
    ∃ t, exec i s = .next t ∧ t = { s with v := t.v } ∧ t.readV x = b ∧ ∀ k, k ≠ x → t.readV k = s.readV k :=
  ⟨_, h, s.writeV_frame x b, s.readV_writeV_self x b, fun _ hk => s.readV_writeV_ne hk b⟩

/-- Such an instruction, where `b` joins two bytes bit by bit. -/
theorem exists_of_writeV_bitwise {f : Bool → Bool → Bool} {a a' : Byte} (h : exec i s = .next (s.writeV x b))
    (hbits : ∀ j, b.getLsbD j = f (a.getLsbD j) (a'.getLsbD j)) :
    ∃ t, exec i s = .next t ∧ t = { s with v := t.v } ∧
      (∀ j, (t.readV x).getLsbD j = f (a.getLsbD j) (a'.getLsbD j)) ∧ ∀ k, k ≠ x → t.readV k = s.readV k := by
  obtain ⟨t, ht, hframe, hx, hrest⟩ := exists_of_writeV h
  exact ⟨t, ht, hframe, fun j => hx ▸ hbits j, hrest⟩

/-- An instruction that writes Vx and then the flag: in VF the flag remains (R96, R97, R99). -/
theorem exists_of_writeV_setFlag (h : exec i s = .next ((s.writeV x b).setFlag c)) :
    ∃ t, exec i s = .next t ∧ t = { s with v := t.v } ∧ (x ≠ vf → t.readV x = b) ∧ t.readV vf = c ∧
      ∀ k, k ≠ x → k ≠ vf → t.readV k = s.readV k := by
  refine ⟨_, h, rfl, fun hx => ?_, State.readV_writeV_self _ vf c, fun k hk hkf => ?_⟩
  · rw [State.readV_setFlag, if_neg hx, State.readV_writeV_self]
  · rw [State.readV_setFlag, if_neg hkf, State.readV_writeV_ne s hk]

/-- An instruction that writes the flag and then takes Vx, read again, through `f`: in VF the flag is taken too
(R98, R100). -/
theorem exists_of_setFlag_writeV {f : Byte → Byte}
    (h : exec i s = .next ((s.setFlag c).writeV x (f ((s.setFlag c).readV x)))) :
    ∃ t, exec i s = .next t ∧ t = { s with v := t.v } ∧ (x ≠ vf → t.readV x = f (s.readV x) ∧ t.readV vf = c) ∧
      (x = vf → t.readV vf = f c) ∧ ∀ k, k ≠ x → k ≠ vf → t.readV k = s.readV k := by
  refine ⟨_, h, rfl, fun hx => ⟨?_, ?_⟩, ?_, fun k hk hkf => ?_⟩
  · rw [State.readV_writeV_self, State.readV_setFlag, if_neg hx]
  · rw [State.readV_writeV_ne _ hx.symm, State.readV_setFlag, if_pos rfl]
  · rintro rfl
    rw [State.readV_writeV_self, State.readV_setFlag, if_pos rfl]
  · rw [State.readV_writeV_ne _ hk, State.readV_setFlag, if_neg hkf]

end Shapes

/-- An instruction that subtracts: the difference, then NOT borrow (R97, R99). -/
theorem exists_of_subtraction {i : Instr} {s : State} {x : Reg} {a b : Byte}
    (h : exec i s = .next ((s.writeV x (a - b)).setFlag (noBorrowFlag a b))) :
    ∃ t, exec i s = .next t ∧ t = { s with v := t.v } ∧
      (x ≠ vf → ((t.readV x).toNat : Int) = ((a.toNat : Int) - (b.toNat : Int)) % 256) ∧
      (t.readV vf).toNat = (if a.toNat ≥ b.toNat then 1 else 0) ∧ ∀ k, k ≠ x → k ≠ vf → t.readV k = s.readV k := by
  obtain ⟨t, ht, hframe, hx, hvf, hrest⟩ := exists_of_writeV_setFlag h
  refine ⟨t, ht, hframe, fun hne => ?_, ?_, hrest⟩
  · rw [hx hne, toNat_sub_byte_eq_emod]
  · rw [hvf, noBorrowFlag_toNat]

/-! ### The statements -/

/-- Settles O21: both instructions write Vx and no flag (`exists_of_writeV`). -/
theorem immediatesWriteOnlyVx : Obligations.ImmediatesWriteOnlyVx := by
  refine fun x nn => ⟨reads_of_encode rfl (fmtXNN_toNat 0x6 x nn), reads_of_encode rfl (fmtXNN_toNat 0x7 x nn),
    fun s => ⟨exists_of_writeV rfl, ?add⟩⟩
  obtain ⟨t, ht, hframe, hx, hrest⟩ := exists_of_writeV (i := .addImm x nn) (s := s) rfl
  exact ⟨t, ht, hframe, hx ▸ BitVec.toNat_add _ _, hrest⟩

/-- Settles O22: the copy is a plain write of Vx, and the three others are bitwise (`exists_of_writeV_bitwise`). -/
theorem copyAndLogicWriteOnlyVx : Obligations.CopyAndLogicWriteOnlyVx := by
  refine fun x y => ⟨reads_of_class8 0 rfl rfl, reads_of_class8 1 rfl rfl, reads_of_class8 2 rfl rfl,
    reads_of_class8 3 rfl rfl, fun s => ⟨exists_of_writeV rfl, ?or, ?and, ?xor⟩⟩
  case or => exact exists_of_writeV_bitwise rfl fun _ => BitVec.getLsbD_or
  case and => exact exists_of_writeV_bitwise rfl fun _ => BitVec.getLsbD_and
  case xor => exact exists_of_writeV_bitwise rfl fun _ => BitVec.getLsbD_xor

/-- Settles O23: the sum, then the carry (`exists_of_writeV_setFlag`). -/
theorem addSetsVxAndCarry : Obligations.AddSetsVxAndCarry := by
  refine fun x y => ⟨reads_of_class8 4 rfl rfl, fun s => ?_⟩
  obtain ⟨t, ht, hframe, hx, hvf, hrest⟩ := exists_of_writeV_setFlag (i := .addReg x y) (s := s) rfl
  refine ⟨t, ht, hframe, fun hne => ?_, ?_, hrest⟩
  · rw [hx hne, BitVec.toNat_add]
  · rw [hvf, carryFlag_toNat]

/-- Settles O24: 8xy5 and 8xy7 subtract in the two orders (`exists_of_subtraction`). -/
theorem subtractionsSetVxAndNoBorrow : Obligations.SubtractionsSetVxAndNoBorrow :=
  fun _ _ => ⟨reads_of_class8 5 rfl rfl, reads_of_class8 7 rfl rfl,
    fun _ => ⟨exists_of_subtraction rfl, exists_of_subtraction rfl⟩⟩

/-- Settles O25: bit 0 goes to VF first (`exists_of_setFlag_writeV`), and a flag shifted right is 0. -/
theorem shiftRightTakesTheLowBit : Obligations.ShiftRightTakesTheLowBit := by
  refine fun x y => ⟨reads_of_class8 6 rfl rfl, fun s => ?_⟩
  obtain ⟨t, ht, hframe, hne, heq, hrest⟩ :=
    exists_of_setFlag_writeV (i := .shr x y) (s := s) (x := x) (f := (· >>> 1)) rfl
  refine ⟨t, ht, hframe, fun hx => ?_, fun hx => ?_, hrest⟩
  · obtain ⟨hvx, hvf⟩ := hne hx
    rw [hvx, hvf, toNat_shiftRight_one, lowBitFlag_toNat]
    exact ⟨rfl, rfl⟩
  · rw [heq hx, toNat_shiftRight_one, lowBitFlag_toNat]
    omega

/-- Settles O26: bit 7 goes to VF first (`exists_of_setFlag_writeV`), and a flag shifted left is 2 or 0. -/
theorem shiftLeftTakesTheHighBit : Obligations.ShiftLeftTakesTheHighBit := by
  refine fun x y => ⟨reads_of_class8 0xE rfl rfl, fun s => ?_⟩
  obtain ⟨t, ht, hframe, hne, heq, hrest⟩ :=
    exists_of_setFlag_writeV (i := .shl x y) (s := s) (x := x) (f := (· <<< 1)) rfl
  refine ⟨t, ht, hframe, fun hx => ?_, fun hx => ?_, hrest⟩
  · obtain ⟨hvx, hvf⟩ := hne hx
    rw [hvx, hvf, toNat_shiftLeft_one, highBitFlag_toNat]
    exact ⟨rfl, rfl⟩
  · rw [heq hx, toNat_shiftLeft_one, highBitFlag_toNat, hx]
    split <;> omega

/-- Settles O27: the write of Vx is `State.writeV`, and the count of draws is no register. -/
theorem randomIsAFreshDrawAndNn : Obligations.RandomIsAFreshDrawAndNn := by
  refine fun x nn => ⟨reads_of_encode rfl (fmtXNN_toNat 0xC x nn), fun s => ⟨_, rfl, rfl, fun j => ?_, fun k hk => ?_⟩⟩
  · show ((s.writeV x (Config.rand8 s.draws &&& nn)).readV x).getLsbD j = _
    rw [State.readV_writeV_self, BitVec.getLsbD_and]
  · exact s.readV_writeV_ne hk _

end Sys2Proof.Machine
end

section
/-! Proofs of the statements of family 42_index_memory: the loads of I, a block store and a block load from I, each said
once with its faults (R107), and the words of class F. -/

namespace Sys2Proof.Machine

/-! ### The words of class F -/

/-- The word of a class F instruction, by the number of its row's pattern `0xF000 + b`. -/
theorem encode_toNat_of_classF {i : Instr} {x : Reg} (b : Byte) (h : encode i = fmtXNN 0xF x b) :
    (encode i).toNat = 0xF000 + b.toNat + 0x100 * x.val := by
  rw [h, fmtXNN_toNat, show (0xF : BitVec 4).toNat = 15 from rfl]
  omega

/-! ### A block store from I (R107) -/

/-- A block written from I is found byte by byte at its data addresses. -/
theorem State.readMem_writeBytes_dataAddr (s : State) (bs : List Byte) {k : Nat} (hk : k < bs.length) :
    State.readMem { s with mem := s.mem.writeBytes s.font (s.dataAddr 0) bs } (s.dataAddr k) = bs[k] := by
  have hin : s.dataAddr 0 ≤ s.dataAddr k ∧ s.dataAddr k < s.dataAddr 0 + bs.length := by
    simp only [State.dataAddr]; omega
  have hoff : s.dataAddr k - s.dataAddr 0 = k := by simp only [State.dataAddr]; omega
  rw [State.readMem_writeBytes, dif_pos hin]
  simp only [hoff]

/-- No address but the block's own data addresses is written. -/
theorem State.readMem_writeBytes_of_ne_dataAddr (s : State) (bs : List Byte) {a : Nat}
    (h : ∀ k, k < bs.length → a ≠ s.dataAddr k) :
    State.readMem { s with mem := s.mem.writeBytes s.font (s.dataAddr 0) bs } a = s.readMem a := by
  have hout : ¬ (s.dataAddr 0 ≤ a ∧ a < s.dataAddr 0 + bs.length) := by
    rintro ⟨h1, h2⟩
    refine h (a - s.dataAddr 0) (by omega) ?_
    simp only [State.dataAddr] at h1 ⊢
    omega
  rw [State.readMem_writeBytes, dif_neg hout]

section BlockStore

variable {i : Instr} {s : State} {bs : List Byte} {word : Nat}

/-- An instruction that stores `bs` from I, where the block lies outside the font region and inside memory. -/
theorem exists_of_blockStore (h : exec i s = finish i s (s.storeBytes (s.dataAddr 0) bs)) (h1 : 0x050 ≤ s.i.toNat)
    (h2 : s.i.toNat + bs.length ≤ 0x1000) :
    ∃ t, exec i s = .next t ∧ t = { s with mem := t.mem } ∧
      (∀ k (hk : k < bs.length), t.readMem (s.dataAddr k) = bs[k]) ∧
      ∀ a, (∀ k, k < bs.length → a ≠ s.dataAddr k) → t.readMem a = s.readMem a := by
  rw [s.storeBytes_ok (a := s.dataAddr 0) bs h1 h2, finish_ok] at h
  exact ⟨_, h, rfl, fun _ hk => s.readMem_writeBytes_dataAddr bs hk,
    fun _ ha => s.readMem_writeBytes_of_ne_dataAddr bs ha⟩

/-- Such an instruction with I in the font region faults at I (D5). -/
theorem raises_fontWrite_of_blockStore (h : exec i s = finish i s (s.storeBytes (s.dataAddr 0) bs))
    (hword : (encode i).toNat = word) (hne : bs ≠ []) (h1 : s.i.toNat ≤ 0x04F) :
    Raises i word .fontWrite (some s.i.toNat) s := by
  obtain ⟨b, bs, rfl⟩ := List.exists_cons_of_ne_nil hne
  rw [s.storeBytes_font (a := s.dataAddr 0) b bs h1, finish_error] at h
  exact raises_of_raiseFault hword h

/-- Such an instruction whose block runs past 0xFFF faults at 0x1000 (D4). -/
theorem raises_memRange_of_blockStore (h : exec i s = finish i s (s.storeBytes (s.dataAddr 0) bs))
    (hword : (encode i).toNat = word) (h1 : 0x050 ≤ s.i.toNat) (h2 : 0x1000 < s.i.toNat + bs.length) :
    Raises i word .memRange (some 0x1000) s := by
  rw [s.storeBytes_range (a := s.dataAddr 0) bs h1 s.dataAddr_zero_le h2, finish_error] at h
  exact raises_of_raiseFault hword h

end BlockStore

theorem length_map_upTo (x : Reg) (f : Reg → Byte) : ((upTo x).map f).length = x.val + 1 := by
  rw [List.length_map, length_upTo]

/-! ### The block load (R110) -/

/-- The state after Fx65 has loaded V0 to Vx. -/
def State.withLoadedRegs (s : State) (x : Reg) : State :=
  s.writeRegs (upTo x) ((List.range (x.val + 1)).map fun k => s.readMem (s.dataAddr k))

theorem execLoadRegs_ok (x : Reg) {s : State} (h : s.i.toNat + x.val ≤ 0xFFF) :
    execLoadRegs x s = .next (s.withLoadedRegs x) := by
  have hend : s.dataAddr 0 + (x.val + 1) ≤ 0x1000 := by rw [State.dataAddr]; omega
  rw [execLoadRegs, s.readBytes_ok _ hend]
  rfl

theorem execLoadRegs_memRange (x : Reg) {s : State} (h : 0xFFF < s.i.toNat + x.val) :
    execLoadRegs x s = raiseFault .memRange (.loadRegs x) (some 0x1000) s := by
  have hend : 0x1000 < s.dataAddr 0 + (x.val + 1) := by rw [State.dataAddr]; omega
  rw [execLoadRegs, s.readBytes_error _ s.dataAddr_zero_le hend]

/-- Each register of the block takes the byte at its own place, and the others keep theirs. -/
theorem State.readV_withLoadedRegs (s : State) (x k : Reg) :
    (s.withLoadedRegs x).readV k = if k ≤ x then s.readMem (s.dataAddr k.val) else s.readV k := by
  obtain ⟨hin, hout⟩ := s.readV_writeRegs (upTo x) ((List.range (x.val + 1)).map fun k => s.readMem (s.dataAddr k))
    (by rw [length_upTo, List.length_map, List.length_range]) (nodup_upTo x) k
  split
  · next hk =>
    have hlt : k.val < (upTo x).length := by rw [length_upTo]; exact Nat.lt_succ_of_le hk
    rw [State.withLoadedRegs, hin k.val hlt (getElem_upTo x k.val hlt), List.getElem_map, List.getElem_range]
  · next hk => exact hout fun hmem => hk ((mem_upTo x k).mp hmem)

/-! ### The statements -/

/-- Settles O30: Fx33 stores the block of its three digits (`exists_of_blockStore` and its two faults), and each digit
fits in a byte. -/
theorem bcdStoresThreeDigits : Obligations.BcdStoresThreeDigits := by
  intro x
  have hword : (encode (.ldB x)).toNat = 0xF033 + 0x100 * x.val := encode_toNat_of_classF 0x33 rfl
  refine ⟨reads_of_encode rfl hword, fun s => ?_⟩
  have hexec : exec (.ldB x) s = finish (.ldB x) s (s.storeBytes (s.dataAddr 0) (bcdDigits (s.readV x))) := rfl
  have hlen : (bcdDigits (s.readV x)).length = 3 := rfl
  refine ⟨fun h1 h2 => ?stored, fun h1 => ?font, fun h1 => ?range⟩
  case stored =>
    obtain ⟨t, ht, hframe, hdigit, hrest⟩ := exists_of_blockStore hexec h1 (by omega)
    have hbyte := (s.readV x).isLt
    refine ⟨t, ht, hframe, ?_, ?_, ?_, hrest⟩
    · exact (congrArg BitVec.toNat (hdigit 0 (by omega))).trans (Nat.mod_eq_of_lt (by omega))
    · exact (congrArg BitVec.toNat (hdigit 1 (by omega))).trans (Nat.mod_eq_of_lt (by omega))
    · exact (congrArg BitVec.toNat (hdigit 2 (by omega))).trans (Nat.mod_eq_of_lt (by omega))
  case font => exact raises_fontWrite_of_blockStore hexec hword nofun h1
  case range => exact raises_memRange_of_blockStore hexec hword (by omega) (by omega)

/-- Settles O31: Fx55 stores the block V0 to Vx (`exists_of_blockStore` and its two faults). -/
theorem storeBlockWritesV0ToVx : Obligations.StoreBlockWritesV0ToVx := by
  intro x
  have hword : (encode (.storeRegs x)).toNat = 0xF055 + 0x100 * x.val := encode_toNat_of_classF 0x55 rfl
  refine ⟨reads_of_encode rfl hword, fun s => ?_⟩
  have hexec : exec (.storeRegs x) s =
      finish (.storeRegs x) s (s.storeBytes (s.dataAddr 0) ((upTo x).map s.readV)) := rfl
  have hlen := length_map_upTo x s.readV
  refine ⟨fun h1 h2 => ?stored, fun h1 => ?font, fun h1 h2 => ?range⟩
  case stored =>
    obtain ⟨t, ht, hframe, hreg, hrest⟩ := exists_of_blockStore hexec h1 (by omega)
    refine ⟨t, ht, hframe, fun k (hk : k.val ≤ x.val) => ?_, fun a ha => hrest a fun k hk => ?_⟩
    · rw [hreg k.val (by omega), List.getElem_map, getElem_upTo]
    · exact ha ⟨k, by omega⟩ (Fin.mk_le_of_le_val (by omega))
  case font =>
    have hne : (upTo x).map s.readV ≠ [] := List.ne_nil_of_length_eq_add_one hlen
    exact raises_fontWrite_of_blockStore hexec hword hne h1
  case range => exact raises_memRange_of_blockStore hexec hword h2 (by omega)

/-- Settles O32: the registers after the load (`State.readV_withLoadedRegs`), and the fault past 0xFFF. -/
theorem loadBlockReadsV0ToVx : Obligations.LoadBlockReadsV0ToVx := by
  intro x
  have hword : (encode (.loadRegs x)).toNat = 0xF065 + 0x100 * x.val := encode_toNat_of_classF 0x65 rfl
  refine ⟨reads_of_encode rfl hword, fun s => ⟨fun h => ?loaded, fun h => ?range⟩⟩
  case loaded =>
    refine ⟨s.withLoadedRegs x, execLoadRegs_ok x h, State.writeRegs_frame .., fun k hk => ?_, fun k hk => ?_⟩
    · rw [State.readV_withLoadedRegs, if_pos hk]
    · rw [State.readV_withLoadedRegs, if_neg hk]
  case range => exact raises_of_raiseFault hword (execLoadRegs_memRange x h)

/-- Settles O28: five times a byte is below 4096, so the product of Fx29 is exact. -/
theorem loadsOfISetOnlyI : Obligations.LoadsOfISetOnlyI := by
  refine ⟨fun nnn => ⟨reads_of_encode rfl (fmtNNN_toNat 0xA nnn), fun _ => rfl⟩, fun x => ?_⟩
  refine ⟨reads_of_encode rfl (encode_toNat_of_classF 0x29 rfl), fun s => ⟨_, rfl, rfl, ?_⟩⟩
  have hbyte := (s.readV x).isLt
  exact Nat.mod_eq_of_lt (by omega)

/-- Settles O29: the sum is taken to the 12 bits of I. -/
theorem addToAddressWrapsAt4096 : Obligations.AddToAddressWrapsAt4096 :=
  fun _ => ⟨reads_of_encode rfl (encode_toNat_of_classF 0x1E rfl), fun _ => ⟨_, rfl, rfl, BitVec.toNat_ofNat ..⟩⟩

end Sys2Proof.Machine
end

section
/-! Proofs of the statements of family 43_display: the state after Dxyn, cell by cell and in its collision flag, said once
(R112) in terms of the cells that the sprite sets. -/

namespace Sys2Proof.Machine

/-! ### The word of Dxyn -/

theorem encode_drw_toNat (x y : Reg) {n : Nat} (hn : n < 16) :
    (encode (.drw x y n)).toNat = 0xD000 + 0x100 * x.val + 0x10 * y.val + n := by
  rw [encode, fmtXYN_toNat, BitVec.toNat_ofNat, Nat.mod_eq_of_lt hn, show (0xD : BitVec 4).toNat = 13 from rfl]

/-! ### The state after Dxyn -/

/-- The drawing of the n-row sprite at `I` on the screen of `s`, at (Vx, Vy). -/
def State.drawing (s : State) (x y : Reg) (n : Nat) : Draw :=
  Draw.rows (s.readV x) (s.readV y) 0 (s.sprite n) ⟨s.fb, false⟩

/-- The state after Dxyn, where the sprite lies inside memory. -/
def State.drawn (s : State) (x y : Reg) (n : Nat) : State :=
  State.setFlag { s with fb := (s.drawing x y n).fb } (collisionFlag (s.drawing x y n).collision)

theorem execDrw_ok (x y : Reg) {n : Nat} {s : State} (h : s.i.toNat + n ≤ 0x1000) :
    execDrw x y n s = .next (s.drawn x y n) :=
  ((execDrw_cases x y n s).resolve_right fun hfault => by omega).2

theorem execDrw_memRange (x y : Reg) {n : Nat} {s : State} (h : 0x1000 < s.i.toNat + n) :
    execDrw x y n s = raiseFault .memRange (.drw x y n) (some 0x1000) s :=
  ((execDrw_cases x y n s).resolve_left fun hok => by omega).2

theorem State.readV_drawn_ne (s : State) (x y : Reg) (n : Nat) {k : Reg} (hk : k ≠ vf) :
    (s.drawn x y n).readV k = s.readV k := by
  rw [State.drawn, State.readV_setFlag, if_neg hk]
  rfl

theorem State.readV_drawn_vf (s : State) (x y : Reg) (n : Nat) :
    (s.drawn x y n).readV vf = collisionFlag (s.drawing x y n).collision := by
  rw [State.drawn, State.readV_setFlag, if_pos rfl]

theorem collisionFlag_eq_one_iff (c : Bool) : collisionFlag c = 1 ↔ c = true := by
  cases c <;> decide

theorem collisionFlag_eq_zero_iff (c : Bool) : collisionFlag c = 0 ↔ c = false := by
  cases c <;> decide

/-! ### The cells that a sprite sets -/

theorem State.length_sprite (s : State) (n : Nat) : (s.sprite n).length = n := by
  rw [State.sprite, List.length_map, List.length_range]

theorem State.getElem_sprite (s : State) (n : Nat) {j : Nat} (hj : j < (s.sprite n).length) :
    (s.sprite n)[j] = s.readMem (s.dataAddr j) := by
  simp only [State.sprite, List.getElem_map, List.getElem_range]

theorem spriteSets_iff_mem (s : State) (x y : Reg) (n : Nat) (c : Fin 64) (r : Fin 32) :
    SpriteSets s x y n c r ↔ (c, r) ∈ spriteCells (s.readV x) (s.readV y) 0 (s.sprite n) := by
  have hcol : ∀ b, c.val = ((s.readV x).toNat + b) % 64 ↔ column (s.readV x) b = c := fun _ => by
    rw [Fin.ext_iff, eq_comm, column]
  have hrowOf : ∀ j, r.val = ((s.readV y).toNat + j) % 32 ↔ rowOf (s.readV y) (0 + j) = r := fun j => by
    rw [Fin.ext_iff, eq_comm, rowOf, Nat.zero_add]
  rw [mem_spriteCells]
  constructor
  · rintro ⟨j, b, hj, hb, hbit, hc, hr⟩
    exact ⟨j, b, (s.length_sprite n).symm ▸ hj, hb, by rwa [s.getElem_sprite], (hcol b).mp hc, (hrowOf j).mp hr⟩
  · rintro ⟨j, b, hj, hb, hbit, hc, hr⟩
    exact ⟨j, b, s.length_sprite n ▸ hj, hb, by rwa [s.getElem_sprite] at hbit, (hcol b).mpr hc, (hrowOf j).mpr hr⟩

/-- What a sprite sets depends on `I`, on the two coordinates and on the sprite's own bytes only. -/
theorem spriteSets_congr {s u : State} {x y : Reg} {n : Nat} (hi : u.i = s.i) (hx : u.readV x = s.readV x)
    (hy : u.readV y = s.readV y) (hmem : ∀ j, j < n → u.readMem (s.dataAddr j) = s.readMem (s.dataAddr j))
    (c : Fin 64) (r : Fin 32) : SpriteSets u x y n c r ↔ SpriteSets s x y n c r := by
  have haddr : ∀ j, u.dataAddr j = s.dataAddr j := fun j => by rw [State.dataAddr, hi, State.dataAddr]
  simp only [SpriteSets, hx, hy, haddr]
  refine exists_congr fun j => exists_congr fun b => and_congr_right fun hj => ?_
  rw [hmem j hj]

/-! ### The drawing, by the cells that the sprite sets -/

section Drawing

variable (s : State) (x y : Reg) {n : Nat} (hn : n < 16)
include hn

/-- A sprite of fewer than 16 rows sets no cell twice, so its drawing is that of distinct cells. -/
theorem State.drawing_spec :
    (∀ c r, (s.drawing x y n).fb.cell c r =
        if (c, r) ∈ spriteCells (s.readV x) (s.readV y) 0 (s.sprite n) then !s.fb.cell c r else s.fb.cell c r) ∧
      ((s.drawing x y n).collision = true ↔ ∃ c r, SpriteSets s x y n c r ∧ s.fb.cell c r = true) := by
  have hlen : (s.sprite n).length ≤ 32 := by rw [s.length_sprite]; omega
  obtain ⟨hcell, hcollision⟩ := Draw.plotAll_spec _ (nodup_spriteCells (s.readV x) (s.readV y) _ 0 hlen)
    ⟨s.fb, false⟩
  rw [State.drawing, Draw.rows_eq_plotAll]
  refine ⟨hcell, hcollision.trans ?_⟩
  simp [spriteSets_iff_mem]

theorem State.cell_drawn_of_spriteSets {c : Fin 64} {r : Fin 32} (h : SpriteSets s x y n c r) :
    (s.drawn x y n).fb.cell c r = !s.fb.cell c r :=
  ((s.drawing_spec x y hn).1 c r).trans (if_pos ((spriteSets_iff_mem ..).mp h))

theorem State.cell_drawn_of_not_spriteSets {c : Fin 64} {r : Fin 32} (h : ¬ SpriteSets s x y n c r) :
    (s.drawn x y n).fb.cell c r = s.fb.cell c r :=
  ((s.drawing_spec x y hn).1 c r).trans (if_neg (mt (spriteSets_iff_mem ..).mpr h))

theorem State.readV_drawn_vf_eq_one_iff :
    (s.drawn x y n).readV vf = 1 ↔ ∃ c r, SpriteSets s x y n c r ∧ s.fb.cell c r = true := by
  rw [State.readV_drawn_vf, collisionFlag_eq_one_iff, (s.drawing_spec x y hn).2]

theorem State.readV_drawn_vf_eq_zero_iff :
    (s.drawn x y n).readV vf = 0 ↔ ∀ c r, SpriteSets s x y n c r → s.fb.cell c r = false := by
  rw [State.readV_drawn_vf, collisionFlag_eq_zero_iff, ← Bool.not_eq_true, (s.drawing_spec x y hn).2]
  simp

/-- A cell lit after a draw was unlit before it exactly when the sprite set it. -/
theorem State.spriteSets_iff_of_cell_drawn {c : Fin 64} {r : Fin 32} (h : (s.drawn x y n).fb.cell c r = true) :
    SpriteSets s x y n c r ↔ s.fb.cell c r = false := by
  by_cases hset : SpriteSets s x y n c r
  · have hflip := s.cell_drawn_of_spriteSets x y hn hset
    rw [h] at hflip
    simpa [hset] using hflip.symm
  · have hkeep := s.cell_drawn_of_not_spriteSets x y hn hset
    simp [hset, ← hkeep, h]

end Drawing

/-! ### The statements -/

/-- Settles O35: the cells and the flag of `State.drawn`, and the fault past 0xFFF. -/
theorem drawXorsTheSpriteAndReportsCollision : Obligations.DrawXorsTheSpriteAndReportsCollision := by
  intro x y n hn
  have hword := encode_drw_toNat x y hn
  refine ⟨reads_of_encode (decide_eq_true hn) hword, fun s => ⟨fun h => ?drawn, fun h => ?range⟩⟩
  case drawn =>
    exact ⟨s.drawn x y n, execDrw_ok x y h, rfl, fun _ hk => s.readV_drawn_ne x y n hk,
      fun _ _ => s.cell_drawn_of_spriteSets x y hn, fun _ _ => s.cell_drawn_of_not_spriteSets x y hn,
      (s.readV_drawn_vf_eq_one_iff x y hn).mpr, (s.readV_drawn_vf_eq_zero_iff x y hn).mpr⟩
  case range => exact raises_of_raiseFault hword (execDrw_memRange x y h)

/-- Settles O36: the second draw sets the same cells (`spriteSets_congr`), so it turns each of them back, and a cell it
finds lit is one that the first draw lit (`State.spriteSets_iff_of_cell_drawn`). -/
theorem drawingTwiceRestoresTheScreen : Obligations.DrawingTwiceRestoresTheScreen := by
  intro x y n s hn h
  refine ⟨s.drawn x y n, execDrw_ok x y h, fun u hfb hi hx hy hmem => ?_⟩
  have hsame := spriteSets_congr hi hx hy hmem
  refine ⟨u.drawn x y n, execDrw_ok x y (hi ▸ h), Framebuffer.ext_cell fun c r => ?_, ?_⟩
  · by_cases hset : SpriteSets s x y n c r
    · rw [u.cell_drawn_of_spriteSets x y hn ((hsame c r).mpr hset), hfb, s.cell_drawn_of_spriteSets x y hn hset,
        Bool.not_not]
    · rw [u.cell_drawn_of_not_spriteSets x y hn (mt (hsame c r).mp hset), hfb,
        s.cell_drawn_of_not_spriteSets x y hn hset]
  · rw [u.readV_drawn_vf_eq_one_iff x y hn, hfb]
    refine exists_congr fun c => exists_congr fun r => and_congr_left fun hlit => ?_
    rw [hsame, s.spriteSets_iff_of_cell_drawn x y hn hlit]

/-- Settles O34: every cell of the blank framebuffer is unlit. -/
theorem clearUnlightsEveryCell : Obligations.ClearUnlightsEveryCell :=
  ⟨reads_of_encode rfl rfl, fun _ => ⟨_, rfl, rfl, Framebuffer.cell_blank⟩⟩

end Sys2Proof.Machine
end

section
/-! Proofs of the statements of family 44_keypad_timers: the key skips and the key wait, each said once by the latch
(R115, R116, R118), and the step that a key wait is (R121). -/

namespace Sys2Proof.Machine

/-! ### The words of format X (R66) -/

/-- The word of an instruction of format X, by the number `c000 + b` of its row's pattern. -/
theorem encode_toNat_of_formatX {i : Instr} {x : Reg} (c : BitVec 4) (b : Byte) (h : encode i = fmtXNN c x b) :
    (encode i).toNat = 0x1000 * c.toNat + b.toNat + 0x100 * x.val := by
  rw [h, fmtXNN_toNat]
  omega

/-! ### The key skips (R115, R116) -/

/-- A byte that is a key's number names that key. -/
theorem keyOf_of_toNat_eq {b : Byte} {k : Reg} (h : b.toNat = k.val) : keyOf b = some k := by
  rw [keyOf_some b (h ▸ k.isLt)]
  exact congrArg some (Fin.ext h)

section KeySkips

variable {x k : Reg} {s : State}

theorem execSkp_key (h : (s.readV x).toNat = k.val) : execSkp x s = .next (s.skipIf (s.keyDown k)) := by
  rw [execSkp, keyOf_of_toNat_eq h]

theorem execSknp_key (h : (s.readV x).toNat = k.val) : execSknp x s = .next (s.skipIf (!s.keyDown k)) := by
  rw [execSknp, keyOf_of_toNat_eq h]

/-- Above 0x0F no key is named (D13). -/
theorem execSkp_keyRange (h : 0x0F < (s.readV x).toNat) :
    execSkp x s = raiseFault .keyRange (.skp x) (some (s.readV x).toNat) s := by
  rw [execSkp, keyOf_none _ h]

theorem execSknp_keyRange (h : 0x0F < (s.readV x).toNat) :
    execSknp x s = raiseFault .keyRange (.sknp x) (some (s.readV x).toNat) s := by
  rw [execSknp, keyOf_none _ h]

end KeySkips

/-! ### The key wait (R118) -/

/-- Where some key is held, one of them is the least. -/
theorem State.exists_lowestKey {s : State} (h : ∃ k, s.keyDown k = true) : ∃ k, s.lowestKey = some k := by
  obtain ⟨k, hk⟩ := h
  refine Option.ne_none_iff_exists'.mp fun hnone => ?_
  rw [s.lowestKey_none.mp hnone k] at hk
  cases hk

/-- With a least key held, Fx0A is a write of its number to Vx. -/
theorem execLdVxK_held (x : Reg) {s : State} {k : Reg} (h : s.lowestKey = some k) :
    ∃ t, execLdVxK x s = .next t ∧ t = { s with v := t.v } ∧ (t.readV x).toNat = k.val ∧
      ∀ j, j ≠ x → t.readV j = s.readV j := by
  have hwrite : exec (.ldVxK x) s = .next (s.writeV x (BitVec.ofNat 8 k.val)) := by
    show execLdVxK x s = _
    rw [execLdVxK, h]
  obtain ⟨t, ht, hframe, hx, hrest⟩ := exists_of_writeV hwrite
  refine ⟨t, ht, hframe, ?_, hrest⟩
  rw [hx, BitVec.toNat_ofNat]
  omega

theorem execLdVxK_free (x : Reg) {s : State} (h : ∀ k, s.keyDown k = false) : execLdVxK x s = .next s.rewind := by
  rw [execLdVxK, s.lowestKey_none.mpr h]

/-- An unscheduled step of a running core at an Fx0A runs it with PC pre-advanced (R68). -/
theorem step_of_fetch_ldVxK {s : State} {x : Reg} (hrun : s.fault = none) (hs : s.schedule = [])
    (hf : s.fetch = some (encode (.ldVxK x))) : step s = execLdVxK x s.advance := by
  rw [step_unscheduled hs, executeStep_decoded hrun hf (decodeOfEncodeIsTheInstruction _ rfl)]
  rfl

/-! ### The statements -/

/-- Settles O40: without a key the rewind undoes the pre-advance; with one, the latch has a least key
(`State.exists_lowestKey`), which the same instruction takes. -/
theorem keyWaitLeavesTheStateAsItWas : Obligations.KeyWaitLeavesTheStateAsItWas := by
  rintro s ⟨hrun, ⟨x, hf⟩, hfree⟩ hs
  refine ⟨?waits, fun keys y hheld hfy => ?completes⟩
  case waits =>
    rw [step_of_fetch_ldVxK hrun hs hf, execLdVxK_free x (s := s.advance) hfree, s.rewind_advance]
  case completes =>
    obtain ⟨k, hk⟩ := State.exists_lowestKey (s := State.advance { s with keys := keys }) hheld
    obtain ⟨hdown, hleast⟩ := (State.lowestKey_some _ k).mp hk
    obtain ⟨t, ht, hframe, hx, hrest⟩ := execLdVxK_held y hk
    have hpc : t.pc = s.pc + 2 := congrArg State.pc hframe
    refine ⟨k, t, ?_, ?_, hpc, hdown, hleast, hx, hrest⟩
    · rw [step_of_fetch_ldVxK (s := { s with keys := keys }) hrun hs hfy, ht]
    · rw [hpc]
      exact hframe

/-- Settles O37: the named key's flag decides both skips, and a value that names no key is the fault's `info`. -/
theorem keySkipsReadTheLatch : Obligations.KeySkipsReadTheLatch := by
  intro x
  have hskp : (encode (.skp x)).toNat = 0xE09E + 0x100 * x.val := encode_toNat_of_formatX 0xE 0x9E rfl
  have hsknp : (encode (.sknp x)).toNat = 0xE0A1 + 0x100 * x.val := encode_toNat_of_formatX 0xE 0xA1 rfl
  refine ⟨reads_of_encode rfl hskp, reads_of_encode rfl hsknp, fun s =>
    ⟨fun k hk hheld => ?held, fun k hk hfree => ?free, fun h => ⟨?_, ?_⟩⟩⟩
  case held =>
    show execSkp x s = _ ∧ execSknp x s = _
    rw [execSkp_key hk, execSknp_key hk, hheld]
    exact ⟨rfl, rfl⟩
  case free =>
    show execSkp x s = _ ∧ execSknp x s = _
    rw [execSkp_key hk, execSknp_key hk, hfree]
    exact ⟨rfl, rfl⟩
  · exact raises_of_raiseFault hskp (execSkp_keyRange h)
  · exact raises_of_raiseFault hsknp (execSknp_keyRange h)

/-- Settles O38: Fx07 is a write of Vx (`exists_of_writeV`), and the two others each set one timer. -/
theorem timerTransfersCopyOneByte : Obligations.TimerTransfersCopyOneByte :=
  fun _ => ⟨reads_of_encode rfl (encode_toNat_of_classF 0x07 rfl),
    reads_of_encode rfl (encode_toNat_of_classF 0x15 rfl), reads_of_encode rfl (encode_toNat_of_classF 0x18 rfl),
    fun _ => ⟨exists_of_writeV rfl, rfl, rfl⟩⟩

/-- Settles O39: the least held key is the one Fx0A takes (`execLdVxK_held`), and with none held PC is rewound. -/
theorem keyWaitTakesTheLowestKey : Obligations.KeyWaitTakesTheLowestKey :=
  fun x => ⟨reads_of_encode rfl (encode_toNat_of_classF 0x0A rfl), fun s =>
    ⟨fun k hk hleast => execLdVxK_held x ((s.lowestKey_some k).mpr ⟨hk, hleast⟩), execLdVxK_free x⟩⟩

end Sys2Proof.Machine
end

section
/-! Proofs of the statements of family 60_exceptions: every fault that an instruction can raise, with its cause
(`FaultCause`), said once; the faults of a step from that; and what the host operations of a running and of a halted core
answer. -/

namespace Sys2Proof.Machine

/-! ### The faults of the instructions (R123, R127) -/

/-- The fault table: `FaultCause i s c info` says that the instruction `i` meets in `s` the condition under which it
raises the fault `c`, and that the record's `info` is then `info`. -/
inductive FaultCause (s : State) : Instr → Fault → Option Nat → Prop
  /-- A call with all 16 stack entries in use (D8). -/
  | stackOverflow (nnn : Addr) (h : s.sp.val = 16) : FaultCause s (.call nnn) .stackOverflow none
  /-- A return with none in use (D8). -/
  | stackUnderflow (h : s.sp.val = 0) : FaultCause s .ret .stackUnderflow none
  /-- A sprite that runs past 0xFFF (D4). -/
  | memRange_drw (x y : Reg) (n : Nat) (h : 0x1000 < s.i.toNat + n) :
      FaultCause s (.drw x y n) .memRange (some 0x1000)
  /-- Three digits that run past 0xFFF (D4). -/
  | memRange_ldB (x : Reg) (h : 0xFFF < s.i.toNat + 2) : FaultCause s (.ldB x) .memRange (some 0x1000)
  /-- A block store that runs past 0xFFF (D4). -/
  | memRange_storeRegs (x : Reg) (h : 0xFFF < s.i.toNat + x.val) :
      FaultCause s (.storeRegs x) .memRange (some 0x1000)
  /-- A block load that runs past 0xFFF (D4). -/
  | memRange_loadRegs (x : Reg) (h : 0xFFF < s.i.toNat + x.val) :
      FaultCause s (.loadRegs x) .memRange (some 0x1000)
  /-- Digits stored in the font region (D5). -/
  | fontWrite_ldB (x : Reg) (h : s.i.toNat ≤ 0x04F) : FaultCause s (.ldB x) .fontWrite (some s.i.toNat)
  /-- A block stored in the font region (D5). -/
  | fontWrite_storeRegs (x : Reg) (h : s.i.toNat ≤ 0x04F) : FaultCause s (.storeRegs x) .fontWrite (some s.i.toNat)
  /-- Ex9E with Vx no key number (D13). -/
  | keyRange_skp (x : Reg) (h : 0x0F < (s.readV x).toNat) :
      FaultCause s (.skp x) .keyRange (some (s.readV x).toNat)
  /-- ExA1 with Vx no key number (D13). -/
  | keyRange_sknp (x : Reg) (h : 0x0F < (s.readV x).toNat) :
      FaultCause s (.sknp x) .keyRange (some (s.readV x).toNat)

/-- The instruction completes in `s` and leaves the record alone, or raises a fault of the table in `s`. -/
def CompletesOrFaults (i : Instr) (s : State) : Prop :=
  (∃ t, exec i s = .next t ∧ t.fault = s.fault) ∨ ∃ c info, FaultCause s i c info ∧ exec i s = raiseFault c i info s

/-- No instruction raises a fault but for a cause of the table. -/
theorem exec_completesOrFaults (i : Instr) (s : State) : CompletesOrFaults i s := by
  cases i with
  | ret =>
    rcases execRet_cases s with ⟨_, e⟩ | ⟨h, e⟩
    · exact .inl ⟨_, e, rfl⟩
    · exact .inr ⟨_, _, .stackUnderflow h, e⟩
  | call nnn =>
    rcases execCall_cases nnn s with ⟨_, e⟩ | ⟨h, e⟩
    · exact .inl ⟨_, e, rfl⟩
    · exact .inr ⟨_, _, .stackOverflow nnn h, e⟩
  | drw x y n =>
    rcases execDrw_cases x y n s with ⟨-, e⟩ | ⟨h, e⟩
    · exact .inl ⟨_, e, rfl⟩
    · exact .inr ⟨_, _, .memRange_drw x y n h, e⟩
  | skp x =>
    rcases execSkp_cases x s with ⟨k, -, e⟩ | ⟨h, e⟩
    · exact .inl ⟨_, e, s.skipIf_fault _⟩
    · exact .inr ⟨_, _, .keyRange_skp x h, e⟩
  | sknp x =>
    rcases execSknp_cases x s with ⟨k, -, e⟩ | ⟨h, e⟩
    · exact .inl ⟨_, e, s.skipIf_fault _⟩
    · exact .inr ⟨_, _, .keyRange_sknp x h, e⟩
  | ldVxK x =>
    rcases execLdVxK_cases x s with ⟨k, -, e⟩ | ⟨-, e⟩
    · exact .inl ⟨_, e, rfl⟩
    · exact .inl ⟨_, e, rfl⟩
  | ldB x =>
    rcases execLdB_cases x s with ⟨-, -, e⟩ | ⟨h, e⟩ | ⟨h, e⟩
    · exact .inl ⟨_, e, rfl⟩
    · exact .inr ⟨_, _, .fontWrite_ldB x h, e⟩
    · exact .inr ⟨_, _, .memRange_ldB x h, e⟩
  | storeRegs x =>
    rcases execStoreRegs_cases x s with ⟨-, -, e⟩ | ⟨h, e⟩ | ⟨-, h, e⟩
    · exact .inl ⟨_, e, rfl⟩
    · exact .inr ⟨_, _, .fontWrite_storeRegs x h, e⟩
    · exact .inr ⟨_, _, .memRange_storeRegs x h, e⟩
  | loadRegs x =>
    rcases execLoadRegs_cases x s with ⟨-, e⟩ | ⟨h, e⟩
    · exact .inl ⟨_, e, by rw [State.writeRegs_frame]⟩
    · exact .inr ⟨_, _, .memRange_loadRegs x h, e⟩
  | seImm | sneImm | seReg | sneReg => exact .inl ⟨_, rfl, s.skipIf_fault _⟩
  | _ => exact .inl ⟨_, rfl, rfl⟩

/-- The pre-advance moves PC only, which no cause looks at. -/
theorem FaultCause.of_advance {s : State} {i : Instr} {c : Fault} {info : Option Nat}
    (h : FaultCause s.advance i c info) : FaultCause s i c info := by
  cases h <;> constructor <;> assumption

/-! ### The word of an instruction that faults (R124) -/

theorem fmtNNN_class (c : BitVec 4) (nnn : Addr) : (fmtNNN c nnn).toNat / 0x1000 = c.toNat := by
  rw [fmtNNN_toNat]; omega

/-- Outside the classes 5 and 9, whose low nibble is ignored, an instruction's encoding is the word it was read from. -/
theorem encode_eq_of_decodeWord {op : Word} {i : Instr} (h : decodeWord op = .ok i)
    (h5 : (encode i).toNat / 0x1000 ≠ 5) (h9 : (encode i).toNat / 0x1000 ≠ 9) : encode i = op := by
  obtain ⟨-, henc⟩ := encodeOfDecodeIsTheWord op i h
  apply BitVec.eq_of_toNat_eq
  split at henc
  · omega
  · exact henc

/-- No skip of the classes 5 and 9 faults. -/
theorem FaultCause.class_ne {s : State} {i : Instr} {c : Fault} {info : Option Nat} (h : FaultCause s i c info) :
    (encode i).toNat / 0x1000 ≠ 5 ∧ (encode i).toNat / 0x1000 ≠ 9 := by
  have of_class : ∀ (k : BitVec 4) (nnn : Addr), k.toNat ≠ 5 ∧ k.toNat ≠ 9 → encode i = fmtNNN k nnn →
      (encode i).toNat / 0x1000 ≠ 5 ∧ (encode i).toNat / 0x1000 ≠ 9 := fun k nnn hk e => by
    rwa [e, fmtNNN_class]
  cases h with
  | stackUnderflow => decide
  | stackOverflow => exact of_class 0x2 _ (by decide) rfl
  | memRange_drw => exact of_class 0xD _ (by decide) rfl
  | keyRange_skp | keyRange_sknp => exact of_class 0xE _ (by decide) rfl
  | memRange_ldB | memRange_storeRegs | memRange_loadRegs | fontWrite_ldB | fontWrite_storeRegs =>
    exact of_class 0xF _ (by decide) rfl

/-! ### The faults of a step (R123 to R125) -/

/-- What a step that has raised the fault recorded in `r` met in `s`: no word at PC, a word that is no instruction, or a
cause of the table for the instruction it read. -/
inductive StepFault (s : State) : FaultRecord → Prop
  | unfetched (hf : s.fetch = none) : StepFault s ⟨.fetchRange, some s.pc, none, some s.pc.toNat⟩
  | illegal (op : Word) (hf : s.fetch = some op) (hd : decodeWord op = .error (.illegalOpcode op)) :
      StepFault s ⟨.illegalOpcode, some s.pc, some op, none⟩
  | raised (op : Word) (i : Instr) (c : Fault) (info : Option Nat) (hf : s.fetch = some op)
      (hd : decodeWord op = .ok i) (hc : FaultCause s i c info) : StepFault s ⟨c, some s.pc, some op, info⟩

/-- An instruction that leaves a fault recorded, run in a core without one, has raised it, and has changed nothing else:
the pre-advance is undone (R125). -/
theorem exec_faulted {s t : State} {op : Word} {i : Instr} {r : FaultRecord} (hrun : s.fault = none)
    (hd : decodeWord op = .ok i) (ht : exec i s.advance = .next t) (hr : t.fault = some r) :
    t = { s with fault := some r } ∧ ∃ c info, FaultCause s i c info ∧ r = ⟨c, some s.pc, some op, info⟩ := by
  rcases exec_completesOrFaults i s.advance with ⟨u, hu, hkeep⟩ | ⟨c, info, hc, hu⟩
  · cases hu.symm.trans ht
    rw [hkeep, State.advance_fault, hrun] at hr
    cases hr
  · obtain ⟨h5, h9⟩ := hc.class_ne
    rw [raiseFault_advance, encode_eq_of_decodeWord hd h5 h9] at hu
    cases hu.symm.trans ht
    cases hr
    exact ⟨rfl, c, info, hc.of_advance, rfl⟩

/-- Everything about a step of a running core, with nothing scheduled, that ends with a fault recorded. -/
theorem step_faulted {s t : State} {r : FaultRecord} (hrun : s.fault = none) (hsch : s.schedule = [])
    (ht : step s = .next t) (hr : t.fault = some r) : t = { s with fault := some r } ∧ StepFault s r := by
  rw [step_unscheduled hsch] at ht
  rcases executeStep_cases hrun ht with ⟨hf, rfl⟩ | ⟨op, hf, hd, rfl⟩ | ⟨op, i, hf, hd, he⟩
  · cases hr
    exact ⟨rfl, .unfetched hf⟩
  · cases hr
    exact ⟨rfl, .illegal op hf hd⟩
  · obtain ⟨hst, c, info, hc, rfl⟩ := exec_faulted hrun hd he hr
    exact ⟨hst, .raised op i c info hf hd hc⟩

/-- Settles O10: a faulting step keeps the rest of the state (`step_faulted`), and its record names PC and the fetched
word in each of the three ways to fault. -/
theorem aFaultChangesNothingButTheRecord : Obligations.AFaultChangesNothingButTheRecord := by
  intro s t r hrun hsch ht hr
  obtain ⟨hst, hcause⟩ := step_faulted hrun hsch ht hr
  refine ⟨hst, ?_⟩
  cases hcause with
  | unfetched hf => exact ⟨rfl, hf.symm⟩
  | illegal op hf hd => exact ⟨rfl, hf.symm⟩
  | raised op i c info hf hd hc => exact ⟨rfl, hf.symm⟩

theorem State.pc_gt_of_fetch_none {s : State} (h : s.fetch = none) : 0xFFE < s.pc.toNat := by
  by_contra hle
  rw [s.fetch_ok (by omega)] at h
  cases h

/-- Settles O11: the three ways to fault of a step (`step_faulted`), the third along the fault table (`FaultCause`). -/
theorem faultsHaveOnlyTheListedCauses : Obligations.FaultsHaveOnlyTheListedCauses := by
  intro s t r hrun hsch ht hr
  obtain ⟨-, hcause⟩ := step_faulted hrun hsch ht hr
  cases hcause with
  | unfetched hf => exact ⟨State.pc_gt_of_fetch_none hf, rfl⟩
  | illegal op hf hd => exact ⟨⟨op, hf, hd⟩, rfl⟩
  | raised op i c info hf hd hc =>
    cases hc with
    | stackOverflow nnn h => exact ⟨⟨op, nnn, hf, hd⟩, h, rfl⟩
    | stackUnderflow h => exact ⟨⟨op, hf, hd⟩, h, rfl⟩
    | memRange_drw x y n h => exact ⟨⟨op, _, hf, hd, .inl ⟨x, y, n, rfl, h⟩⟩, rfl⟩
    | memRange_ldB x h => exact ⟨⟨op, _, hf, hd, .inr (.inl ⟨x, rfl, h⟩)⟩, rfl⟩
    | memRange_storeRegs x h => exact ⟨⟨op, _, hf, hd, .inr (.inr ⟨x, .inl rfl, h⟩)⟩, rfl⟩
    | memRange_loadRegs x h => exact ⟨⟨op, _, hf, hd, .inr (.inr ⟨x, .inr rfl, h⟩)⟩, rfl⟩
    | fontWrite_ldB x h => exact ⟨⟨op, x, hf, .inl hd⟩, h, rfl⟩
    | fontWrite_storeRegs x h => exact ⟨⟨op, x, hf, .inr hd⟩, h, rfl⟩
    | keyRange_skp x h => exact ⟨op, x, hf, .inl hd, h, rfl⟩
    | keyRange_sknp x h => exact ⟨op, x, hf, .inr hd, h, rfl⟩

/-! ### A running core has a step (R131, R143) -/

theorem exec_next (i : Instr) (s : State) : ∃ t, exec i s = .next t := by
  obtain ⟨t, ht, -⟩ := exec_hasEffect i s
  exact ⟨t, ht⟩

theorem executeStep_next {s : State} (hrun : s.fault = none) : ∃ t, executeStep s = .next t := by
  cases hf : s.fetch with
  | none => exact ⟨_, executeStep_unfetched hrun hf⟩
  | some op =>
    cases hd : decodeWord op with
    | error e => exact ⟨_, executeStep_illegal hrun hf hd⟩
    | ok i =>
      rw [executeStep_decoded hrun hf hd]
      exact exec_next i s.advance

theorem performOp_next {s : State} (hrun : s.fault = none) (op : HostOp) : ∃ t, performOp op s = .next t := by
  obtain ⟨htick, hkeys, hload⟩ := performOp_running hrun
  cases op with
  | executeStep =>
    rw [performOp_executeStep]
    exact executeStep_next hrun
  | timerTick => exact ⟨_, htick⟩
  | setKeys k => exact ⟨_, hkeys k⟩
  | loadProgram bytes => exact ⟨_, hload bytes⟩
  | readFramebuffer | readKeys | readFault => exact ⟨s, rfl⟩

/-- Settles O9: every instruction has an effect (`exec_hasEffect`), and a step of a running core is `ExecuteStep` or the
scheduled operation, which both have a next state. -/
theorem onlyAHaltedCoreHasNoStep : Obligations.OnlyAHaltedCoreHasNoStep := by
  refine ⟨exec_next, fun s hrun => ?_⟩
  cases hsch : s.schedule with
  | nil =>
    rw [step_unscheduled hsch]
    exact executeStep_next hrun
  | cons op rest =>
    rw [step_scheduled hsch]
    exact performOp_next (s := { s with schedule := rest }) hrun op

/-! ### The operations of a halted core (R126) -/

theorem State.unlessHalted_running {s : State} (h : s.fault = none) (t : State) (r : HostResult) :
    s.unlessHalted t r = .next (t, r) := by
  rw [State.unlessHalted, h]

theorem State.unlessHalted_halted {s : State} (h : s.fault ≠ none) (t : State) (r : HostResult) :
    s.unlessHalted t r = .refused .halted := by
  obtain ⟨f, hf⟩ := Option.ne_none_iff_exists'.mp h
  rw [State.unlessHalted, hf]

theorem hostOp_halted {s : State} (h : s.fault ≠ none) {op : HostOp} (hop : Changes op) :
    hostOp op s = .refused .halted := by
  cases op with
  | executeStep => rw [hostOp, executeStep_halted h]
  | timerTick | setKeys | loadProgram => exact s.unlessHalted_halted h _ _
  | readFramebuffer | readKeys | readFault => exact hop.elim

/-- The operations that a halted core still has are the reads, which change nothing. -/
theorem performOp_halted {s t : State} (h : s.fault ≠ none) {op : HostOp} (ht : performOp op s = .next t) : t = s := by
  have hread : ¬ Changes op := fun hop => h (fault_none_of_performOp hop ht)
  cases op with
  | readFramebuffer | readKeys | readFault => cases ht; rfl
  | executeStep | timerTick | setKeys | loadProgram => exact absurd trivial hread

/-- Settles O12: the refusals are `hostOp_halted`, and the only steps left are the scheduled reads. -/
theorem aHaltedCoreNeverChanges : Obligations.AHaltedCoreNeverChanges := by
  refine fun s h => ⟨fun _ => hostOp_halted h, rfl, rfl, rfl, fun t ht => ?_⟩
  cases hsch : s.schedule with
  | nil =>
    rw [step_unscheduled hsch, executeStep_halted h] at ht
    cases ht
  | cons op rest =>
    rw [step_scheduled hsch] at ht
    obtain rfl := performOp_halted (s := { s with schedule := rest }) h ht
    rfl

/-! ### The answers of the host operations (R134, R135, R140 to R143) -/

theorem countDown_toNat (t : Byte) : (countDown t).toNat = t.toNat - 1 := by
  rw [countDown]
  split <;> bv_omega

theorem State.beep_iff (s : State) : s.beep = true ↔ s.st.toNat = 1 := by
  rw [State.beep, beq_iff_eq, ← BitVec.toNat_inj]
  rfl

/-- Settles O42: both timers count down by one from above 0 (`countDown_toNat`), and the beep reads ST of before. -/
theorem tickCountsDownToZero : Obligations.TickCountsDownToZero := by
  intro s h
  have hdt : s.timerTick.dt.toNat = s.dt.toNat - 1 := countDown_toNat s.dt
  have hst : s.timerTick.st.toNat = s.st.toNat - 1 := countDown_toNat s.st
  refine ⟨s.timerTick, s.beep, s.unlessHalted_running h _ _, rfl, ?_, ?_, ?_, ?_, s.beep_iff⟩
  all_goals omega

/-- Settles O43: the latch is the one given, and a halted core refuses (`hostOp_halted`). -/
theorem setKeysWritesTheLatch : Obligations.SetKeysWritesTheLatch :=
  fun s keys => ⟨fun h => ⟨s.setKeys keys, s.unlessHalted_running h _ _, rfl, fun _ => rfl⟩,
    fun h => hostOp_halted h (op := .setKeys keys) trivial⟩

theorem hostOp_executeStep {s t : State} (h : executeStep s = .next t) :
    hostOp .executeStep s = .next (t, t.completion) := by
  rw [hostOp, h]

theorem State.completion_ok {t : State} (h : t.fault = none) : t.completion = .ok := by
  rw [State.completion, h]

theorem State.completion_faulted {t : State} {r : FaultRecord} (h : t.fault = some r) : t.completion = .faulted r := by
  rw [State.completion, h]

/-- Settles O45: the reads by definition; `ExecuteStep` answers the completion of its next state. -/
theorem hostReadsAndStepResult : Obligations.HostReadsAndStepResult := by
  refine fun s => ⟨rfl, rfl, rfl, fun t ht => ?_⟩
  rw [hostOp_executeStep ht]
  exact ⟨fun h => by rw [State.completion_ok h], fun r h => by rw [State.completion_faulted h]⟩

end Sys2Proof.Machine
end

section
/-! Proofs of the statements of family 70_reset_and_hazards: the self-jump that ends a run, `LoadProgram`, and the first
fetch after initialization. -/

namespace Sys2Proof.Machine

/-! ### The self-jump (R155, R156) -/

/-- Two well-formed instructions with one word are the same, since the decoder reads each from it (O2). -/
theorem eq_of_encode_eq {i j : Instr} (hi : i.wf = true) (hj : j.wf = true) (h : encode i = encode j) : i = j := by
  have hread := decodeOfEncodeIsTheInstruction i hi
  rw [h, decodeOfEncodeIsTheInstruction j hj] at hread
  exact (Except.ok.inj hread).symm

/-- A jump to the instruction's own address undoes the pre-advance. -/
theorem State.advance_jump_pc (s : State) : s.advance.jump s.pc = s := rfl

/-- Settles O41: the jump's target is PC (`State.advance_jump_pc`), and the fetched word is no Fx0A's
(`eq_of_encode_eq`). -/
theorem selfJumpRepeatsForEver : Obligations.SelfJumpRepeatsForEver := by
  rintro s a ⟨hrun, hpc, nnn, hf, hnnn⟩ hs
  refine ⟨?repeats, ?noWait, fun hfault => hfault hrun, hpc ▸ State.pc_le_of_fetch hf⟩
  case repeats =>
    have htarget : zextAddr nnn = s.pc := BitVec.eq_of_toNat_eq (by rw [zextAddr_toNat, hnnn, hpc])
    rw [step_unscheduled hs, executeStep_decoded hrun hf (decodeOfEncodeIsTheInstruction _ rfl)]
    show Host.Outcome.next (s.advance.jump (zextAddr nnn)) = _
    rw [htarget, s.advance_jump_pc]
  case noWait =>
    rintro ⟨-, ⟨x, hwait⟩, -⟩
    have hword : encode (.jp nnn) = encode (.ldVxK x) := Option.some.inj (hf.symm.trans hwait)
    cases eq_of_encode_eq rfl rfl hword

/-! ### `LoadProgram` (R148, R149) -/

theorem hostOp_loadProgram_ok {s : State} {bytes : List Byte} (hrun : s.fault = none) (h : bytes.length ≤ 3584) :
    hostOp (.loadProgram bytes) s = .next ({ s with mem := s.mem.writeBytes s.font 0x200 bytes }, .ok) := by
  have hload : s.loadProgram bytes = { s with mem := s.mem.writeBytes s.font 0x200 bytes } :=
    if_neg (Nat.not_lt.mpr h)
  have hok : (s.loadProgram bytes).completion = .ok := State.completion_ok (by rw [hload]; exact hrun)
  rw [hostOp, s.unlessHalted_running hrun, hok, hload]

theorem hostOp_loadProgram_tooLarge {s : State} {bytes : List Byte} (hrun : s.fault = none)
    (h : 3584 < bytes.length) :
    hostOp (.loadProgram bytes) s =
      .next ({ s with fault := some ⟨.programTooLarge, none, none, some bytes.length⟩ },
        .faulted ⟨.programTooLarge, none, none, some bytes.length⟩) := by
  have hload : s.loadProgram bytes = s.recordFault .programTooLarge none none (some bytes.length) := if_pos h
  rw [hostOp, s.unlessHalted_running hrun, hload, State.completion_faulted (State.recordFault_fault ..)]
  rfl

/-- The bytes of a block are found in their order from its first address on. -/
theorem State.readMem_writeBytes_at (s : State) (a : Nat) {j : Nat} {bs : List Byte} (h : j < bs.length) :
    State.readMem { s with mem := s.mem.writeBytes s.font a bs } (a + j) = bs[j] := by
  have hin : a ≤ a + j ∧ a + j < a + bs.length := by omega
  rw [State.readMem_writeBytes, dif_pos hin]
  simp only [Nat.add_sub_cancel_left]

/-- Settles O44: an image that fits is one block written at 0x200 (`hostOp_loadProgram_ok`), and a longer one is the
fault. -/
theorem loadProgramCopiesTheImage : Obligations.LoadProgramCopiesTheImage := by
  intro s bytes hrun
  refine ⟨fun h => ⟨_, hostOp_loadProgram_ok hrun h, rfl, fun j hj => s.readMem_writeBytes_at 0x200 hj,
    fun a ha => ?outside⟩, hostOp_loadProgram_tooLarge hrun⟩
  case outside => rw [State.readMem_writeBytes, dif_neg (by omega)]

/-! ### The first fetch (R147) -/

/-- With PC at 0x200, the fetch joins the two bytes there. -/
theorem State.fetch_at_programBase {s : State} {hi lo : Byte} (hpc : s.pc = 0x200) (hhi : s.readMem 0x200 = hi)
    (hlo : s.readMem 0x201 = lo) : s.fetch = some (Word.ofBytes hi lo) := by
  have hpc' : s.pc.toNat = 0x200 := congrArg BitVec.toNat hpc
  rw [s.fetch_ok (by omega), hpc', hhi, hlo]

/-- Settles O59: PC is 0x200, where memory reads zero after `Init` (O47) and the image's first two bytes after a
load. -/
theorem theFirstFetchIsOfTheLoadedProgram : Obligations.TheFirstFetchIsOfTheLoadedProgram := by
  intro font
  refine ⟨?empty, fun hi lo rest hlen => ?loaded⟩
  case empty =>
    obtain ⟨-, hzero⟩ := initInstallsTheFontAndZeros font
    exact State.fetch_at_programBase rfl (hzero 0x200 (by decide) (by decide)) (hzero 0x201 (by decide) (by decide))
  case loaded =>
    have hfits : (hi :: lo :: rest).length ≤ 3584 := by simp only [List.length_cons]; omega
    have hbyte := fun j => (State.init font).readMem_writeBytes_at 0x200 (j := j) (bs := hi :: lo :: rest)
    exact ⟨_, _, hostOp_loadProgram_ok rfl hfits, rfl,
      State.fetch_at_programBase rfl (hbyte 0 (by simp)) (hbyte 1 (by simp)), Word.toNat_ofBytes hi lo⟩

end Sys2Proof.Machine
end
